-- ==== Sys2Proof/Config.lean ====
section
/-! DEFINITION. Config.lean: the parameters of the block (00_scope.md R5) that this hardware fixes,
and the range of the one it leaves open. The value an instance takes for the open parameter is
`Machine.nblkMax` (Machine/Operands.lean, assumption log 1). -/

namespace Sys2Proof

/-- `W`, the width in bits of one storage word: `W = 8` for this hardware (R5, D2). -/
abbrev Config.W : Nat := 8

/-- `CORRECT_P7`: whether the decoder flips position 7 when the overall-parity bit is the sole error;
0 for this hardware (R5, R106, D9). -/
def Config.correctP7 : Bool := false

/-- The legal values of the open parameter `NBLK_MAX`: `1 <= NBLK_MAX <= 8191` (R5, D3). -/
abbrev Config.NblkLegal (nblk : Nat) : Prop := 1 ≤ nblk ∧ nblk ≤ 8191

end Sys2Proof
end

