-- ==== Sys2Proof/Word.lean ====
section
/-! DEFINITION. Word.lean: the bit vectors of the hardware and the three buffer names.
Everything here is unsigned (00_scope.md R7, 43_control_ops.md R125). -/

namespace Sys2Proof

/-- One storage word of a bit buffer, `W = 8` bits (10_state.md R11, 00_scope.md R5). -/
abbrev Word := BitVec 8

/-- A data block carried as an integer: position `p` is integer bit `3-p`; 4 bits, fixed by
the document (30_encoding.md R50, R52). -/
abbrev DataBlock := BitVec 4

/-- A codeword block carried as an integer: position `p` is integer bit `7-p`; 8 bits, fixed by
the document (R51, R52). -/
abbrev CodeBlock := BitVec 8

/-- The `ARG` field of a command and every 16-bit register (R60; 10_state.md R13, R16, R18). -/
abbrev Arg := BitVec 16

/-- A command word `CMD` (R60). -/
abbrev CmdWord := BitVec 32

/-- A report entry: `CLASS` 7:6, `POS` 5:3, `S` 2:0 (R58). -/
abbrev ReportEntry := BitVec 8

/-- The three bit buffers (10_state.md R10). Buffer number 3 is reserved and has no name. -/
inductive Buf where
  | din
  | cw
  | dout
  deriving DecidableEq, Repr

end Sys2Proof
end

