-- ==== Sys2Proof/Syntax.lean ====
section
/-! DEFINITION. Syntax.lean: the eleven host commands, one constructor per row of
spec/opcode_table.json (30_encoding.md R61), with their operands (R62). -/

namespace Sys2Proof

/-- A host command with its operands (R61, R62). -/
inductive Instr where
  /-- `ALLOC b, n`: `n` is the new length in bits (40_buffer_ops.md R70). -/
  | alloc (b : Buf) (n : Arg)
  /-- `GET b, k` (R71). -/
  | get (b : Buf) (k : Arg)
  /-- `SET b, k, v` (R72). -/
  | set (b : Buf) (k : Arg) (v : Bool)
  /-- `FLIP b, k` (R73). -/
  | flip (b : Buf) (k : Arg)
  /-- `RDWORD b, j` (R74). -/
  | rdword (b : Buf) (j : Arg)
  /-- `ENCODE len` (41_encoder.md R95). -/
  | encode (len : Arg)
  /-- `DECODE len` (42_decoder.md R112). -/
  | decode (len : Arg)
  /-- `ENCB d` (41_encoder.md R93): the operand is `ARG[3:0]`. -/
  | encb (d : DataBlock)
  /-- `DECB c` (42_decoder.md R110): the operand is `ARG[7:0]`. -/
  | decb (c : CodeBlock)
  /-- `RDRPT i` (43_control_ops.md R120). -/
  | rdrpt (i : Arg)
  /-- `RDREG r` (43_control_ops.md R121); only 0 .. 4 name a register (10_state.md R18). -/
  | rdreg (r : Arg)
  deriving DecidableEq, Repr

end Sys2Proof
end

