-- ==== Sys2Proof/WellFormed.lean ====
section
/-! DEFINITION. WellFormed.lean: the operand checks of 30_encoding.md R63 that the operand types do not
make. The buffer number, the 4-bit block and the 8-bit block are right by their types; a register
number may name no register. -/

namespace Sys2Proof

/-- The command is one the decoder can answer: `RDREG r` has `r <= 4` (R63 last test, 10_state.md R18). -/
def Instr.wf (i : Instr) : Bool :=
  match i with
  | .alloc _ _ => true
  | .get _ _ => true
  | .set _ _ _ => true
  | .flip _ _ => true
  | .rdword _ _ => true
  | .encode _ => true
  | .decode _ => true
  | .encb _ => true
  | .decb _ => true
  | .rdrpt _ => true
  | .rdreg r => decide (r.toNat ≤ 4)

end Sys2Proof
end

