-- ==== Sys2Proof/Decode.lean ====
section
/-! DEFINITION. Decode.lean: the command word of 30_encoding.md R60, the decoder of R63 (total on all
2^32 words, every rejection by name), and after it the encoder and the opcode table of R61. -/

namespace Sys2Proof

/-- Which test of R63 a command word fails first. Every one of them is `CV_COMMAND` (R63, R64). -/
inductive Reject where
  /-- `OP` is 0x0 or 0xC .. 0xF. -/
  | reservedOpcode
  /-- `ZERO` is not 0. -/
  | zeroField
  /-- `BUF = 3` in a command that names a buffer. -/
  | reservedBuffer
  /-- `BUF` is not 0 in a command that names none. -/
  | unusedBuf
  /-- `VAL` is not 0 in a command other than `SET`. -/
  | unusedVal
  /-- `ENCB` with `ARG[15:4]` not 0. -/
  | wideDataBlock
  /-- `DECB` with `ARG[15:8]` not 0. -/
  | wideCodeBlock
  /-- `RDREG` with `ARG > 4`. -/
  | noSuchRegister
  deriving DecidableEq, Repr

/-- `OP = CMD[31:28]` (R60). -/
def opField (w : CmdWord) : BitVec 4 := w.extractLsb' 28 4

/-- `BUF = CMD[27:26]` (R60). -/
def bufField (w : CmdWord) : BitVec 2 := w.extractLsb' 26 2

/-- `ZERO = CMD[25:17]` (R60). -/
def zeroField (w : CmdWord) : BitVec 9 := w.extractLsb' 17 9

/-- `VAL = CMD[16]` (R60). -/
def valField (w : CmdWord) : BitVec 1 := w.extractLsb' 16 1

/-- `ARG = CMD[15:0]` (R60). -/
def argField (w : CmdWord) : Arg := w.extractLsb' 0 16

/-- The buffer with number `b` (10_state.md R10); number 3 is reserved. -/
def bufOfNumber (b : BitVec 2) : Option Buf :=
  match b.toNat with
  | 0 => some .din
  | 1 => some .cw
  | 2 => some .dout
  | _ => none

/-- The number of a buffer (10_state.md R10). -/
def bufNumber (b : Buf) : BitVec 2 :=
  match b with
  | .din => 0
  | .cw => 1
  | .dout => 2

/-- A command that names a buffer: the operand is read from `BUF`, and 3 is rejected (R63). -/
def withBuf (b : BitVec 2) (mk : Buf → Instr) : Except Reject Instr :=
  match bufOfNumber b with
  | some x => .ok (mk x)
  | none => .error .reservedBuffer

/-- Operand assembly (R61, R62): the command that opcode `op` selects, from the other fields. -/
def assembleOperands (op : BitVec 4) (b : BitVec 2) (v : BitVec 1) (arg : Arg) : Except Reject Instr :=
  match op.toNat with
  | 0x1 => withBuf b (fun x => .alloc x arg)
  | 0x2 => withBuf b (fun x => .get x arg)
  | 0x3 => withBuf b (fun x => .set x arg (v == 1#1))
  | 0x4 => withBuf b (fun x => .flip x arg)
  | 0x5 => withBuf b (fun x => .rdword x arg)
  | 0x6 => .ok (.encode arg)
  | 0x7 => .ok (.decode arg)
  | 0x8 => .ok (.encb (arg.extractLsb' 0 4))
  | 0x9 => .ok (.decb (arg.extractLsb' 0 8))
  | 0xA => .ok (.rdrpt arg)
  | 0xB => .ok (.rdreg arg)
  | _ => .error .reservedOpcode

/-- The tests of R63 on the fields of a command word, in its order, then the operands. -/
def decodeFields (op : BitVec 4) (b : BitVec 2) (z : BitVec 9) (v : BitVec 1) (arg : Arg) :
    Except Reject Instr :=
  if op.toNat = 0x0 ∨ 0xC ≤ op.toNat then .error .reservedOpcode
  else if z ≠ 0 then .error .zeroField
  else if op.toNat ≤ 0x5 ∧ b.toNat = 3 then .error .reservedBuffer
  else if 0x6 ≤ op.toNat ∧ b ≠ 0 then .error .unusedBuf
  else if op.toNat ≠ 0x3 ∧ v ≠ 0 then .error .unusedVal
  else if op.toNat = 0x8 ∧ arg.extractLsb' 4 12 ≠ 0 then .error .wideDataBlock
  else if op.toNat = 0x9 ∧ arg.extractLsb' 8 8 ≠ 0 then .error .wideCodeBlock
  else if op.toNat = 0xB ∧ 4 < arg.toNat then .error .noSuchRegister
  else assembleOperands op b v arg

/-- Decoding a command word (R63): total, a command or the first test that fails. -/
def decode (w : CmdWord) : Except Reject Instr :=
  decodeFields (opField w) (bufField w) (zeroField w) (valField w) (argField w)

/-! ### The encoder (R60, R61) -/

/-- The command word `{OP, BUF, ZERO = 0, VAL, ARG}` (R60). -/
def packCommand (op : BitVec 4) (b : BitVec 2) (v : Bool) (arg : Arg) : CmdWord :=
  op ++ b ++ 0#9 ++ BitVec.ofBool v ++ arg

/-- The command word of a command (R61); a field the command does not use is 0. -/
def encode (i : Instr) : CmdWord :=
  match i with
  | .alloc b n => packCommand 0x1 (bufNumber b) false n
  | .get b k => packCommand 0x2 (bufNumber b) false k
  | .set b k v => packCommand 0x3 (bufNumber b) v k
  | .flip b k => packCommand 0x4 (bufNumber b) false k
  | .rdword b j => packCommand 0x5 (bufNumber b) false j
  | .encode len => packCommand 0x6 0 false len
  | .decode len => packCommand 0x7 0 false len
  | .encb d => packCommand 0x8 0 false (d.setWidth 16)
  | .decb c => packCommand 0x9 0 false (c.setWidth 16)
  | .rdrpt i => packCommand 0xA 0 false i
  | .rdreg r => packCommand 0xB 0 false r

/-- The command the decoder reads from a word of `nbits` bits numbered as spec/opcode_table.json numbers
them (bit 0 least significant). Every command has 32 bits (R60): a shorter word has zeros above it, and
a value that does not fit 32 bits is no command word. -/
def decodeTableWord (nbits w : Nat) : Option Instr :=
  if w % 2 ^ nbits < 2 ^ 32 then
    match decode (BitVec.ofNat 32 (w % 2 ^ nbits)) with
    | .ok i => some i
    | .error _ => none
  else none

/-! ### The opcode table (spec/opcode_table.json) -/

/-- One row of the opcode table: the words `w` with `w &&& mask = pattern`. -/
structure OpcodeRow where
  mnemonic : String
  pattern : CmdWord
  mask : CmdWord
  deriving DecidableEq, Repr

/-- The `match` and `mask` columns of spec/opcode_table.json, in its order. -/
def opcodeTable : List OpcodeRow :=
  [⟨"ALLOC", 0x10000000, 0xF3FF0000⟩, ⟨"GET", 0x20000000, 0xF3FF0000⟩,
   ⟨"SET", 0x30000000, 0xF3FE0000⟩, ⟨"FLIP", 0x40000000, 0xF3FF0000⟩,
   ⟨"RDWORD", 0x50000000, 0xF3FF0000⟩, ⟨"ENCODE", 0x60000000, 0xFFFF0000⟩,
   ⟨"DECODE", 0x70000000, 0xFFFF0000⟩, ⟨"ENCB", 0x80000000, 0xFFFFFFF0⟩,
   ⟨"DECB", 0x90000000, 0xFFFFFF00⟩, ⟨"RDRPT", 0xA0000000, 0xFFFF0000⟩,
   ⟨"RDREG", 0xB0000000, 0xFFFF0000⟩]

/-- The word lies in the row (mask and match). -/
def OpcodeRow.has (row : OpcodeRow) (w : CmdWord) : Bool := w &&& row.mask == row.pattern

/-- The row's mnemonic of a command (R61). -/
def mnemonicOf (i : Instr) : String :=
  match i with
  | .alloc _ _ => "ALLOC"
  | .get _ _ => "GET"
  | .set _ _ _ => "SET"
  | .flip _ _ => "FLIP"
  | .rdword _ _ => "RDWORD"
  | .encode _ => "ENCODE"
  | .decode _ => "DECODE"
  | .encb _ => "ENCB"
  | .decb _ => "DECB"
  | .rdrpt _ => "RDRPT"
  | .rdreg _ => "RDREG"

end Sys2Proof
end

