-- ==== Sys2Proof/Machine/State.lean ====
section
/-! DEFINITION. Machine/State.lean: the state of the core (10_state.md R23), the two sides of its command
port, the reset state (R25) and the reasons a step can stop. Plain data throughout. -/

namespace Sys2Proof.Machine

/-- The storage words of one buffer or an empty store: a list of (word number, word) pairs in one
canonical form (`Memory.wf`, Machine/Ops.lean): word numbers strictly rising, no word equal to 0, which is
what an unlisted word reads as (R25: every storage word is 0 after reset; R14; assumption log 6). -/
abbrev Memory := List Host.Cell

/-- One bit buffer: its storage words `BUF[b].w[]` (R11) and its length register `LEN[b]` (R13). -/
structure Buffer where
  words : Memory
  len : BitVec 16
  deriving DecidableEq, Repr

/-- The sticky fault register `FAULT` (R17): `V` is integer bit 3, `CAUSE` integer bits 2:0. -/
structure FaultReg where
  v : Bool
  cause : BitVec 3
  deriving DecidableEq, Repr

/-- The causes of a constraint violation (60_exceptions.md R130). Codes 5 .. 7 are never produced (V3). -/
inductive Cause where
  /-- `CV_LENGTH`: a length is not a multiple of the block size. -/
  | length
  /-- `CV_INDEX`: an index, word number, block number or length is outside the declared range. -/
  | index
  /-- `CV_CAPACITY`: `ALLOC` asks for more bits than the buffer holds. -/
  | capacity
  /-- `CV_COMMAND`: the word is no legal command. -/
  | command
  deriving DecidableEq, Repr

/-- The whole state of the core (R23): `(BUF[0..2].w[], LEN[0..2], RPT[], NRPT, FAULT)`. -/
structure CoreState where
  /-- `DIN`, buffer 0, with `LEN[0]`. -/
  din : Buffer
  /-- `CW`, buffer 1, with `LEN[1]`. -/
  cw : Buffer
  /-- `DOUT`, buffer 2, with `LEN[2]`. -/
  dout : Buffer
  /-- `RPT[0 .. NRPT-1]` (R15, R16); entries from `NRPT` on hold no defined value and are not held (log 7). -/
  rpt : List ReportEntry
  /-- `NRPT` (R16). -/
  nrpt : BitVec 16
  /-- `FAULT` (R17). -/
  fault : FaultReg
  deriving DecidableEq, Repr

/-- A response (30_encoding.md R66). Its packed word is `Response.pack` (Machine/Operands.lean). -/
structure Response where
  /-- `ERR`: the command took a constraint violation and performed nothing. -/
  err : Bool
  /-- `CAUSE`: the cause code when `ERR = 1`, else 0. -/
  cause : BitVec 3
  /-- `RPT`: a report entry for `DECB` and `RDRPT`, else 0. -/
  rpt : ReportEntry
  /-- `DATA`: the command's result (R67). -/
  data : BitVec 16
  deriving DecidableEq, Repr

/-- What the host can ask of an idle core (70_reset_and_hazards.md R154): any command word, or a reset. -/
inductive HostRequest where
  | command (w : CmdWord)
  | reset
  deriving DecidableEq, Repr

/-- The core's state, and the two sides of its port: what the host has asked for and has not been taken,
and what it has been answered, each oldest first (00_scope.md R8; assumption logs 2 and 3). -/
structure State where
  core : CoreState
  pending : List HostRequest
  responses : List Response
  deriving DecidableEq, Repr

/-- Why a step could stop. No command of this hardware stops: a violation is an error response
(60_exceptions.md R133) and a report is data (R138), so there is no reason at all (assumption log 9). -/
inductive Fault where
  deriving DecidableEq, Repr

/-- Why a step could refuse. -/
inductive Refusal where
  /-- Raised by an arm of `exec` for an instruction that has no meaning yet: safe. No arm raises it. -/
  | notModelled (mnemonic : String)
  deriving DecidableEq, Repr

/-- What a step answers. -/
abbrev Outcome := Host.Outcome State Fault Refusal

/-- The core after reset (R25): buffers empty and their words 0, no report, no fault. -/
def CoreState.reset : CoreState where
  din := { words := [], len := 0 }
  cw := { words := [], len := 0 }
  dout := { words := [], len := 0 }
  rpt := []
  nrpt := 0
  fault := { v := false, cause := 0 }

/-- The machine right after reset: the core of R25, idle, with nothing asked and nothing answered
(logs 2, 3 and 5). -/
def State.reset : State where
  core := CoreState.reset
  pending := []
  responses := []

end Sys2Proof.Machine
end

