-- ==== Sys2Proof/Machine/Operands.lean ====
section
/-! DEFINITION. Machine/Operands.lean: how operands name things (30_encoding.md R62, R68): positions of a block
(R52), buffers and their capacity (00_scope.md R5), registers by number (10_state.md R18), and the packed
response word (R66). -/

namespace Sys2Proof.Machine

/-! ### Blocks (R50, R51, R52) -/

/-- Position `p` of an `n`-bit block: integer bit `n-1-p` (R52). -/
def blockPos {n : Nat} (c : BitVec n) (p : Nat) : Bool := c.getLsbD (n - 1 - p)

/-- The data block with the given bits, position 0 first (R50, R52). -/
def dataOfBits (d0 d1 d2 d3 : Bool) : DataBlock :=
  BitVec.ofBool d0 ++ BitVec.ofBool d1 ++ BitVec.ofBool d2 ++ BitVec.ofBool d3

/-- The codeword block with the given bits, position 0 first (R51, R52). -/
def codeOfBits (c0 c1 c2 c3 c4 c5 c6 c7 : Bool) : CodeBlock :=
  BitVec.ofBool c0 ++ BitVec.ofBool c1 ++ BitVec.ofBool c2 ++ BitVec.ofBool c3 ++
    BitVec.ofBool c4 ++ BitVec.ofBool c5 ++ BitVec.ofBool c6 ++ BitVec.ofBool c7

/-- The block with position `p` inverted (42_decoder.md R104, R111). -/
def flipPos (c : CodeBlock) (p : Nat) : CodeBlock := c ^^^ (1#8 <<< (7 - p))

/-! ### Buffers (10_state.md R10, R11; 00_scope.md R5) -/

/-- The open parameter `NBLK_MAX` of this instance: 4, the value the spec's own vectors use
(R5, 95_test_vectors.md). DESIGN CHOICE, unsafe: the spec leaves `1 <= NBLK_MAX <= 8191` open, so what is
stated of the machine is stated for every legal value (assumption log 1). -/
def nblkMax : Nat := 4

/-- `CAP[b]`, the capacity in bits of buffer `b` at `NBLK_MAX = nblk` (R5, R11). -/
def capacity (nblk : Nat) (b : Buf) : Nat :=
  match b with
  | .din => 4 * nblk
  | .cw => 8 * nblk
  | .dout => 4 * nblk

/-- `NW[b] = ceil(CAP[b] / W)`, the number of storage words of buffer `b` (R11). -/
def numWords (nblk : Nat) (b : Buf) : Nat := (capacity nblk b + (Config.W - 1)) / Config.W

/-- Buffer `b` of the core (R10). -/
def CoreState.buf (c : CoreState) (b : Buf) : Buffer :=
  match b with
  | .din => c.din
  | .cw => c.cw
  | .dout => c.dout

/-- The core with buffer `b` replaced and nothing else changed. -/
def CoreState.setBuf (c : CoreState) (b : Buf) (x : Buffer) : CoreState :=
  match b with
  | .din => { c with din := x }
  | .cw => { c with cw := x }
  | .dout => { c with dout := x }

/-! ### Registers by number (R18) -/

/-- `FAULT` as `RDREG 4` reads it: bit 3 = `V`, bits 2:0 = `CAUSE`, bits 15:4 = 0 (R17, R18). -/
def FaultReg.read (f : FaultReg) : BitVec 16 := (BitVec.ofBool f.v ++ f.cause).setWidth 16

/-- The value of register `r` (R18, 43_control_ops.md R121); numbers above 4 name none. -/
def CoreState.register (c : CoreState) (r : Arg) : Option (BitVec 16) :=
  match r.toNat with
  | 0 => some c.din.len
  | 1 => some c.cw.len
  | 2 => some c.dout.len
  | 3 => some c.nrpt
  | 4 => some c.fault.read
  | _ => none

/-- `RPT[i]`. It is read only for `i < NRPT` (R120), where an entry is held in every state a run reaches;
0 stands in for an entry that is not held (assumption log 7). -/
def CoreState.report (c : CoreState) (i : Nat) : ReportEntry := c.rpt.getD i 0

/-! ### The packed response (R66) -/

/-- `RSP = {ERR, CAUSE, 0[4], RPT, DATA}` (R66). -/
def Response.pack (r : Response) : BitVec 32 :=
  BitVec.ofBool r.err ++ r.cause ++ 0#4 ++ r.rpt ++ r.data

end Sys2Proof.Machine
end

