-- ==== Sys2Proof/Machine/Flags.lean ====
section
/-! DEFINITION. Machine/Flags.lean: the decoder's flags (10_state.md R19: `c1`, `c2`, `c3`, `s`, `m` and the
class, transients of one block), the report entry they make (30_encoding.md R58, R59), and the one sticky
flag of the block, `FAULT` (10_state.md R17). -/

namespace Sys2Proof.Machine

/-- `c1`: XOR of positions 6, 4, 2, 0 (42_decoder.md R101). -/
def check1 (c : CodeBlock) : Bool := blockPos c 6 ^^ blockPos c 4 ^^ blockPos c 2 ^^ blockPos c 0

/-- `c2`: XOR of positions 5, 4, 1, 0 (R101). -/
def check2 (c : CodeBlock) : Bool := blockPos c 5 ^^ blockPos c 4 ^^ blockPos c 1 ^^ blockPos c 0

/-- `c3`: XOR of positions 3, 2, 1, 0 (R101). -/
def check3 (c : CodeBlock) : Bool := blockPos c 3 ^^ blockPos c 2 ^^ blockPos c 1 ^^ blockPos c 0

/-- The syndrome `s = 4*c3 + 2*c2 + c1` (R101, R53). -/
def syndrome (c : CodeBlock) : BitVec 3 :=
  BitVec.ofNat 3 (4 * (check3 c).toNat + 2 * (check2 c).toNat + (check1 c).toNat)

/-- The observed overall parity: XOR of positions 0 .. 6 (R102, 41_encoder.md R90). -/
def observedParity (c : CodeBlock) : Bool :=
  blockPos c 0 ^^ blockPos c 1 ^^ blockPos c 2 ^^ blockPos c 3 ^^ blockPos c 4 ^^ blockPos c 5 ^^
    blockPos c 6

/-- The mismatch bit `m`: observed overall parity against stored position 7 (R102). -/
def mismatch (c : CodeBlock) : Bool := observedParity c ^^ blockPos c 7

/-- The four rows of the policy table (R104). -/
inductive BlockClass where
  | none
  | corrected
  | double
  | parity
  deriving DecidableEq, Repr

/-- `CLASS` (30_encoding.md R59). -/
def BlockClass.code (k : BlockClass) : BitVec 2 :=
  match k with
  | .none => 0
  | .corrected => 1
  | .double => 2
  | .parity => 3

/-- The row of the policy table that `(m, s)` selects (R104). -/
def classify (m : Bool) (s : BitVec 3) : BlockClass :=
  if m then (if s = 0 then .parity else .corrected)
  else (if s = 0 then .none else .double)

/-- The position the report names: `7 - s` for `CORRECTED`, 7 for `PARITY`, else 0 (R104, R105, R58). -/
def reportPos (k : BlockClass) (s : BitVec 3) : Nat :=
  match k with
  | .none => 0
  | .corrected => 7 - s.toNat
  | .double => 0
  | .parity => 7

/-- A report entry `{CLASS, POS, S}` (R58). -/
def packReport (k : BlockClass) (pos : Nat) (s : BitVec 3) : ReportEntry :=
  k.code ++ BitVec.ofNat 3 pos ++ s

/-- `CLASS` of an entry: bits 7:6 (R58). -/
def reportClass (r : ReportEntry) : BitVec 2 := r.extractLsb' 6 2

/-- `POS` of an entry: bits 5:3 (R58). -/
def reportPosField (r : ReportEntry) : BitVec 3 := r.extractLsb' 3 3

/-- `S` of an entry: bits 2:0 (R58). -/
def reportSyndrome (r : ReportEntry) : BitVec 3 := r.extractLsb' 0 3

/-- The code of a cause (60_exceptions.md R130). -/
def Cause.code (k : Cause) : BitVec 3 :=
  match k with
  | .length => 1
  | .index => 2
  | .capacity => 3
  | .command => 4

/-- `FAULT` after a violation: the first cause since reset is kept (10_state.md R17, 60_exceptions.md R133). -/
def FaultReg.latch (f : FaultReg) (k : Cause) : FaultReg :=
  if f.v then f else { v := true, cause := k.code }

end Sys2Proof.Machine
end

