-- ==== Sys2Proof/Machine/Ops.lean ====
section
/-! DEFINITION. Machine/Ops.lean: the operations every meaning is made of: storage words, bits and blocks of a
buffer (20_memory.md R31 to R38), the two ways a command ends (30_encoding.md R66; 60_exceptions.md R133, the
only exception entry of this hardware; there is no return from it, R135), the reset request, and taking the
host's next request. -/

namespace Sys2Proof.Machine

/-! ### Storage words -/

/-- Word numbers strictly rise and no listed word is 0. -/
def Memory.wf (m : Memory) : Bool :=
  match m with
  | [] => true
  | (a, v) :: rest => (v != 0) && rest.all (fun cell => decide (a < cell.1)) && Memory.wf rest

/-- Word `a`; a word that is not listed is 0 (10_state.md R14, R25). -/
def Memory.read (m : Memory) (a : Nat) : Word :=
  match m with
  | [] => 0
  | (k, v) :: rest => if k = a then v else Memory.read rest a

/-- Without word `a`. -/
def Memory.erase (m : Memory) (a : Nat) : Memory := m.filter (fun cell => cell.1 != a)

/-- With word `a` put before the first word of a higher number. -/
def Memory.insert (m : Memory) (a : Nat) (v : Word) : Memory :=
  match m with
  | [] => [(a, v)]
  | (k, x) :: rest => if a < k then (a, v) :: (k, x) :: rest else (k, x) :: Memory.insert rest a v

/-- Write word `a`; writing 0 removes the entry, so that equal contents are equal lists. -/
def Memory.write (m : Memory) (a : Nat) (v : Word) : Memory :=
  if v = 0 then m.erase a else (m.erase a).insert a v

/-! ### Bits (R31, R32, R33) -/

/-- The shift of the bit at index `k` in its word: `W - 1 - (k % W)` (R31). -/
def bitShift (k : Nat) : Nat := Config.W - 1 - k % Config.W

/-- `BitRead(b, k) = (BUF[b].w[k / W] >> (W - 1 - (k % W))) & 1` (R32). -/
def bitRead (m : Memory) (k : Nat) : Bool := (m.read (k / Config.W) >>> bitShift k) &&& 1 == 1

/-- `BitWrite(b, k, v)` (R33): with `mask = 1 << (W - 1 - (k % W))`, word `k / W` becomes
`(w & ~mask) | (v ? mask : 0)`. -/
def bitWrite (m : Memory) (k : Nat) (v : Bool) : Memory :=
  m.write (k / Config.W)
    ((m.read (k / Config.W) &&& ~~~((1 : Word) <<< bitShift k)) |||
      (if v then (1 : Word) <<< bitShift k else 0))

/-! ### Blocks (R37: data block `i` at index `4*i`, codeword block `i` at index `8*i`) -/

/-- The codeword block at indices `8*i .. 8*i+7`. -/
def readCode (m : Memory) (i : Nat) : CodeBlock :=
  codeOfBits (bitRead m (8 * i)) (bitRead m (8 * i + 1)) (bitRead m (8 * i + 2)) (bitRead m (8 * i + 3))
    (bitRead m (8 * i + 4)) (bitRead m (8 * i + 5)) (bitRead m (8 * i + 6)) (bitRead m (8 * i + 7))

/-- The data block at indices `4*i .. 4*i+3`. -/
def readData (m : Memory) (i : Nat) : DataBlock :=
  dataOfBits (bitRead m (4 * i)) (bitRead m (4 * i + 1)) (bitRead m (4 * i + 2)) (bitRead m (4 * i + 3))

/-- Write the first `n` positions of a block at indices `base .. base+n-1`, in ascending order. -/
def writePositions {w : Nat} (m : Memory) (base : Nat) (c : BitVec w) (n : Nat) : Memory :=
  match n with
  | 0 => m
  | p + 1 => bitWrite (writePositions m base c p) (base + p) (blockPos c p)

/-- Write a codeword block at indices `8*i .. 8*i+7` (R95). -/
def writeCode (m : Memory) (i : Nat) (c : CodeBlock) : Memory := writePositions m (8 * i) c 8

/-- Write a data block at indices `4*i .. 4*i+3` (R112). -/
def writeData (m : Memory) (i : Nat) (d : DataBlock) : Memory := writePositions m (4 * i) d 4

/-! ### How a command ends (R66, R133) -/

/-- The state with one more response. -/
def State.answer (s : State) (r : Response) : State := { s with responses := s.responses ++ [r] }

/-- The response of a command that was performed: `ERR = 0`, `CAUSE = 0` (R66). -/
def okResponse (data : BitVec 16) (rpt : ReportEntry) : Response :=
  { err := false, cause := 0, rpt := rpt, data := data }

/-- The response of a violation: `ERR = 1`, the cause, `RPT = 0`, `DATA = 0` (R66, R133). -/
def errResponse (k : Cause) : Response := { err := true, cause := k.code, rpt := 0, data := 0 }

/-- `respond(DATA = data, RPT = rpt)` with the core as it is. -/
def respond (data : BitVec 16) (rpt : ReportEntry) (s : State) : Outcome :=
  .next (s.answer (okResponse data rpt))

/-- `raise CV(k)`, the fault action (R133): `FAULT` keeps the first cause, the response carries this one, and
nothing else changes. -/
def raiseCV (k : Cause) (s : State) : Outcome :=
  .next ({ s with core := { s.core with fault := s.core.fault.latch k } }.answer (errResponse k))

/-- The state with buffer `b` replaced. -/
def State.setBuf (s : State) (b : Buf) (x : Buffer) : State := { s with core := s.core.setBuf b x }

/-! ### Requests (43_control_ops.md R122; 70_reset_and_hazards.md R150, R153, R154) -/

/-- The reset request: the whole core state becomes that of R25, and there is no response (R122, R150). -/
def resetRequest (s : State) : Outcome := .next { s with core := CoreState.reset }

/-- A word that is no command: `CV_COMMAND` and no other effect (R63, R64). -/
def rejectCommand (s : State) : Outcome := raiseCV .command s

/-- With nothing asked the core is idle and loses no state (60_exceptions.md R145; assumption log 4). -/
def idle (s : State) : Outcome := .next s

/-- Present a command word as the host's very next request. -/
def presentCommand (s : State) (w : CmdWord) : State := { s with pending := .command w :: s.pending }

/-- Take the host's next request and act on it; `onCommand` is what a command word does (one request is one
step, 20_memory.md R40, R41). -/
def takeRequest (onCommand : CmdWord → State → Outcome) (s : State) : Outcome :=
  match s.pending with
  | [] => idle s
  | .reset :: rest => resetRequest { s with pending := rest }
  | .command w :: rest => onCommand w { s with pending := rest }

end Sys2Proof.Machine
end

