-- ==== Sys2Proof/Machine/Command.lean ====
section
/-! DEFINITION. Machine/Command.lean: what a command word does (30_encoding.md R63), over any meaning of the
commands. -/

namespace Sys2Proof.Machine

/-- A command word: decoded and executed, or `CV_COMMAND` (R63, R64). -/
def runCommand (ex : Instr → State → Outcome) (w : CmdWord) (s : State) : Outcome :=
  match decode w with
  | .ok i => ex i s
  | .error _ => rejectCommand s

end Sys2Proof.Machine
end

