-- ==== Sys2Proof/Machine/BufferCmds.lean ====
section
/-! DEFINITION. Machine/BufferCmds.lean: the bit-buffer commands ALLOC, GET, SET, FLIP, RDWORD
(40_buffer_ops.md R70 to R74). -/

namespace Sys2Proof.Machine

/-- `ALLOC b, n` at `NBLK_MAX = nblk` (R70): above capacity `CV_CAPACITY`; else every word of `b` is cleared
and `LEN[b] <- n`. -/
def execAllocAt (nblk : Nat) (b : Buf) (n : Arg) (s : State) : Outcome :=
  if capacity nblk b < n.toNat then raiseCV .capacity s
  else respond 0 0 (s.setBuf b { words := [], len := n })

/-- `ALLOC b, n` (R70) on this instance's capacity. -/
def execAlloc (b : Buf) (n : Arg) (s : State) : Outcome := execAllocAt nblkMax b n s

/-- `GET b, k` (R71): an index out of range is `CV_INDEX`; else the response is the bit. -/
def execGet (b : Buf) (k : Arg) (s : State) : Outcome :=
  if k.toNat < (s.core.buf b).len.toNat then
    respond ((BitVec.ofBool (bitRead (s.core.buf b).words k.toNat)).setWidth 16) 0 s
  else raiseCV .index s

/-- `SET b, k, v` (R72): an index out of range is `CV_INDEX`; else that one bit is written. -/
def execSet (b : Buf) (k : Arg) (v : Bool) (s : State) : Outcome :=
  if k.toNat < (s.core.buf b).len.toNat then
    respond 0 0 (s.setBuf b { s.core.buf b with words := bitWrite (s.core.buf b).words k.toNat v })
  else raiseCV .index s

/-- `FLIP b, k` (R73): an index out of range is `CV_INDEX`; else that one bit is inverted. -/
def execFlip (b : Buf) (k : Arg) (s : State) : Outcome :=
  if k.toNat < (s.core.buf b).len.toNat then
    respond 0 0 (s.setBuf b { s.core.buf b with
      words := bitWrite (s.core.buf b).words k.toNat (!bitRead (s.core.buf b).words k.toNat) })
  else raiseCV .index s

/-- `RDWORD b, j` (R74): a word that holds no index in range is `CV_INDEX` (the product `j * W` is exact,
43_control_ops.md R125); else the response is the word, zero-extended. -/
def execRdword (b : Buf) (j : Arg) (s : State) : Outcome :=
  if j.toNat * Config.W < (s.core.buf b).len.toNat then
    respond (((s.core.buf b).words.read j.toNat).setWidth 16) 0 s
  else raiseCV .index s

end Sys2Proof.Machine
end

