-- ==== Sys2Proof/Machine/Decoder.lean ====
section
/-! DEFINITION. Machine/Decoder.lean: `dec84` and the commands DECB and DECODE (42_decoder.md). -/

namespace Sys2Proof.Machine

/-- What `dec84` answers: the block after the decoder has acted on it, the data bits, the report entry (R108). -/
structure Decoded where
  block : CodeBlock
  data : DataBlock
  report : ReportEntry
  deriving DecidableEq, Repr

/-- Step 3, the action on the block (R104, R105, R106): `CORRECTED` inverts position `7 - s`; `PARITY` inverts
position 7 only where `CORRECT_P7 = 1`, and for this hardware it is 0. -/
def correctBlock (c : CodeBlock) (k : BlockClass) (s : BitVec 3) : CodeBlock :=
  match k with
  | .none => c
  | .corrected => flipPos c (7 - s.toNat)
  | .double => c
  | .parity => if Config.correctP7 then flipPos c 7 else c

/-- Step 4, extraction of positions 0, 1, 2, 4 (R107). -/
def extractData (c : CodeBlock) : DataBlock :=
  dataOfBits (blockPos c 0) (blockPos c 1) (blockPos c 2) (blockPos c 4)

/-- The policy-table row of a block (R104). -/
def classOf (c : CodeBlock) : BlockClass := classify (mismatch c) (syndrome c)

/-- The whole per-block decoder (R108). -/
def dec84 (c : CodeBlock) : Decoded where
  block := correctBlock c (classOf c) (syndrome c)
  data := extractData (correctBlock c (classOf c) (syndrome c))
  report := packReport (classOf c) (reportPos (classOf c) (syndrome c)) (syndrome c)

/-- What the pass of `DECODE` has written so far: `CW`, `DOUT` and the report entries. -/
structure DecodePass where
  cw : Memory
  dout : Memory
  rpt : List ReportEntry
  deriving DecidableEq, Repr

/-- Write a block back where the decoder changed it: one bit, at the position the report names (R112). -/
def writeBack (cw : Memory) (i : Nat) (d : Decoded) (changed : Bool) (pos : Nat) : Memory :=
  if changed then bitWrite cw (8 * i + pos) (blockPos d.block pos) else cw

/-- The classes in which the decoder changes the block (R104, R106). -/
def changesBlock (k : BlockClass) : Bool :=
  match k with
  | .none => false
  | .corrected => true
  | .double => false
  | .parity => Config.correctP7

/-- One block of the pass (R112): read it whole, correct it in place, write its data block, log its report. -/
def decodeBlock (p : DecodePass) (i : Nat) : DecodePass where
  cw := writeBack p.cw i (dec84 (readCode p.cw i)) (changesBlock (classOf (readCode p.cw i)))
    (reportPos (classOf (readCode p.cw i)) (syndrome (readCode p.cw i)))
  dout := writeData p.dout i (dec84 (readCode p.cw i)).data
  rpt := p.rpt ++ [(dec84 (readCode p.cw i)).report]

/-- The first `n` blocks of the pass, in ascending order (R112). -/
def decodeBlocks (n : Nat) (p : DecodePass) : DecodePass :=
  match n with
  | 0 => p
  | i + 1 => decodeBlock (decodeBlocks i p) i

/-- `DECB c` (R110): `DATA = {c'[0..7], 0000, d[0..3]}`, `RPT` the report; no state read or written. -/
def execDecb (c : CodeBlock) (s : State) : Outcome :=
  respond ((dec84 c).block ++ 0#4 ++ (dec84 c).data) (dec84 c).report s

/-- The core after a `DECODE` whose pass ended as `p` (R112): `CW` keeps its length, `DOUT` is new, and the
reports of earlier passes are gone (70_reset_and_hazards.md R158). -/
def decodedCore (c : CoreState) (len : Arg) (p : DecodePass) : CoreState :=
  { c with
    cw := { c.cw with words := p.cw }
    dout := { words := p.dout, len := BitVec.ofNat 16 (len.toNat / 2) }
    rpt := p.rpt
    nrpt := BitVec.ofNat 16 (len.toNat / 8) }

/-- The pass of `DECODE len` over the core's `CW` (R112): `DOUT` starts cleared, the log empty. -/
def decodePass (c : CoreState) (len : Arg) : DecodePass :=
  decodeBlocks (len.toNat / 8) { cw := c.cw.words, dout := [], rpt := [] }

/-- `DECODE len` (R112, R113): `CV_LENGTH` before `CV_INDEX` (60_exceptions.md R134); else the pass over the first
`len / 8` blocks of `CW`. -/
def execDecode (len : Arg) (s : State) : Outcome :=
  if len.toNat % 8 ≠ 0 then raiseCV .length s
  else if s.core.cw.len.toNat < len.toNat then raiseCV .index s
  else respond (BitVec.ofNat 16 (len.toNat / 8)) 0
    { s with core := decodedCore s.core len (decodePass s.core len) }

end Sys2Proof.Machine
end

