-- ==== Sys2Proof/Machine/Encoder.lean ====
section
/-! DEFINITION. Machine/Encoder.lean: `enc84` and the commands ENCB and ENCODE (41_encoder.md). -/

namespace Sys2Proof.Machine

/-- `enc84(d0, d1, d2, d3) -> c[0..7]` (R90): data at positions 0, 1, 2, 4, Hamming parity at 3, 5, 6, and at 7
the XOR of positions 0 .. 6. -/
def enc84 (d0 d1 d2 d3 : Bool) : CodeBlock :=
  codeOfBits d0 d1 d2 (d0 ^^ d1 ^^ d2) d3 (d0 ^^ d1 ^^ d3) (d0 ^^ d2 ^^ d3)
    (d0 ^^ d1 ^^ d2 ^^ (d0 ^^ d1 ^^ d2) ^^ d3 ^^ (d0 ^^ d1 ^^ d3) ^^ (d0 ^^ d2 ^^ d3))

/-- `enc84` of a data block carried as an integer (R92, R52). -/
def encodeData (d : DataBlock) : CodeBlock :=
  enc84 (blockPos d 0) (blockPos d 1) (blockPos d 2) (blockPos d 3)

/-- The first `n` blocks of the pass of `ENCODE` in ascending order (R95): codeword block `i` of `cw` becomes
`enc84` of data block `i` of `din`. -/
def encodeBlocks (din : Memory) (n : Nat) (cw : Memory) : Memory :=
  match n with
  | 0 => cw
  | i + 1 => writeCode (encodeBlocks din i cw) i (encodeData (readData din i))

/-- `ENCB d` (R93): the codeword of `d`, no state read or written. -/
def execEncb (d : DataBlock) (s : State) : Outcome := respond ((encodeData d).setWidth 16) 0 s

/-- `ENCODE len` (R95, R96): `CV_LENGTH` before `CV_INDEX` (60_exceptions.md R134); else `CW` is allocated, cleared,
with length `2 * len`, and filled block by block. -/
def execEncode (len : Arg) (s : State) : Outcome :=
  if len.toNat % 4 ≠ 0 then raiseCV .length s
  else if s.core.din.len.toNat < len.toNat then raiseCV .index s
  else respond (BitVec.ofNat 16 (2 * len.toNat)) 0
    (s.setBuf .cw { words := encodeBlocks s.core.din.words (len.toNat / 4) []
                    len := BitVec.ofNat 16 (2 * len.toNat) })

end Sys2Proof.Machine
end

