-- ==== Sys2Proof/Machine/Status.lean ====
section
/-! DEFINITION. Machine/Status.lean: the status commands RDRPT and RDREG (43_control_ops.md R120, R121). -/

namespace Sys2Proof.Machine

/-- `RDRPT i` (R120): `CV_INDEX` when `i >= NRPT`; else the entry, which is not cleared. -/
def execRdrpt (i : Arg) (s : State) : Outcome :=
  if i.toNat < s.core.nrpt.toNat then respond 0 (s.core.report i.toNat) s
  else raiseCV .index s

/-- `RDREG r` (R121): the register's value; a number that names no register is `CV_COMMAND` (10_state.md R18),
which the command decode has raised already (30_encoding.md R63). -/
def execRdreg (r : Arg) (s : State) : Outcome :=
  match s.core.register r with
  | some v => respond v 0 s
  | none => raiseCV .command s

end Sys2Proof.Machine
end

