-- ==== Sys2Proof/Machine/Dispatch.lean ====
section
/-! DEFINITION. Machine/Dispatch.lean: one arm per command (30_encoding.md R61). -/

namespace Sys2Proof.Machine

def exec (i : Instr) (s : State) : Host.Outcome State Fault Refusal :=
  match i with
  | .alloc b n => Sys2Proof.Machine.execAlloc b n s
  | .get b k => Sys2Proof.Machine.execGet b k s
  | .set b k v => Sys2Proof.Machine.execSet b k v s
  | .flip b k => Sys2Proof.Machine.execFlip b k s
  | .rdword b j => Sys2Proof.Machine.execRdword b j s
  | .encode len => Sys2Proof.Machine.execEncode len s
  | .decode len => Sys2Proof.Machine.execDecode len s
  | .encb d => Sys2Proof.Machine.execEncb d s
  | .decb c => Sys2Proof.Machine.execDecb c s
  | .rdrpt k => Sys2Proof.Machine.execRdrpt k s
  | .rdreg r => Sys2Proof.Machine.execRdreg r s

end Sys2Proof.Machine
end

