-- ==== Sys2Proof/Machine/Step.lean ====
section
/-! DEFINITION. Machine/Step.lean: one step takes one host request (20_memory.md R40, R41; 10_state.md R21: the
order of commands is the host's, nothing is fetched from memory). -/

namespace Sys2Proof.Machine

/-- One step: nothing asked, a reset request, or a command word. -/
def step (s : State) : Host.Outcome State Fault Refusal := takeRequest (runCommand exec) s

/-- The state in which the host's very next request is the word of spec/opcode_table.json with `nbits` bits
(30_encoding.md R60; assumption log 5). -/
def State.withFetchWord (s : State) (nbits w : Nat) : State :=
  presentCommand s (BitVec.ofNat 32 (w % 2 ^ nbits))

end Sys2Proof.Machine
end

