-- ==== Sys2Proof/Machine/Assembler.lean ====
section
/-! DEFINITION. Machine/Assembler.lean: a written command and the commands it stands for (30_encoding.md R68): the
operand forms, and the three pseudo-commands LOAD, INJECT, CLEAR. The spelling of a line as characters is not
modelled (assumption log 11). -/

namespace Sys2Proof.Machine

/-- The mnemonics of R61 and the pseudo-commands of R68. -/
inductive Mnemonic where
  | alloc
  | get
  | set
  | flip
  | rdword
  | encode
  | decode
  | encb
  | decb
  | rdrpt
  | rdreg
  /-- `LOAD b, "x0 x1 ..."` -/
  | load
  /-- `INJECT k` -/
  | inject
  /-- `CLEAR b, k` -/
  | clear
  deriving DecidableEq, Repr

/-- An operand as written (R68): a buffer's name, an integer, or a bit string, position (or index) 0 first. -/
inductive AsmOperand where
  | buffer (b : Buf)
  | int (n : Nat)
  | bits (bs : List Bool)
  deriving DecidableEq, Repr

/-- A buffer operand: `DIN`, `CW`, `DOUT`, or the number 0, 1, 2 (R68). -/
def AsmOperand.asBuf (x : AsmOperand) : Option Buf :=
  match x with
  | .buffer b => some b
  | .int 0 => some .din
  | .int 1 => some .cw
  | .int 2 => some .dout
  | .int _ => none
  | .bits _ => none

/-- The integer a bit string written position 0 first stands for (R52). -/
def bitsToNat (bs : List Bool) : Nat := bs.foldl (fun acc x => 2 * acc + x.toNat) 0

/-- An integer that fits the 16-bit `ARG` field (R62). -/
def AsmOperand.asArg (x : AsmOperand) : Option Arg :=
  match x with
  | .int n => if n < 2 ^ 16 then some (BitVec.ofNat 16 n) else none
  | .buffer _ => none
  | .bits _ => none

/-- A bit: 0 or 1. -/
def AsmOperand.asBit (x : AsmOperand) : Option Bool :=
  match x with
  | .int 0 => some false
  | .int 1 => some true
  | .int _ => none
  | .buffer _ => none
  | .bits _ => none

/-- An `n`-bit block: an integer, or a bit string of `n` bits position 0 first (R68). -/
def AsmOperand.asBlock (n : Nat) (x : AsmOperand) : Option (BitVec n) :=
  match x with
  | .int v => if v < 2 ^ n then some (BitVec.ofNat n v) else none
  | .bits bs => if bs.length = n then some (BitVec.ofNat n (bitsToNat bs)) else none
  | .buffer _ => none

/-- `SET b, k, xk` for the bits of a `LOAD`, from index `k` on, in ascending order (R68). -/
def loadSets (b : Buf) (k : Nat) (bs : List Bool) : List Instr :=
  match bs with
  | [] => []
  | x :: rest => .set b (BitVec.ofNat 16 k) x :: loadSets b (k + 1) rest

/-- `LOAD b, bits` (R68): `ALLOC b, n`, then the `SET`s. -/
def expandLoad (b : Buf) (bs : List Bool) : List Instr :=
  .alloc b (BitVec.ofNat 16 bs.length) :: loadSets b 0 bs

/-- `INJECT k` is `FLIP CW, k` (R68). -/
def expandInject (k : Arg) : List Instr := [.flip .cw k]

/-- `CLEAR b, k` is `SET b, k, 0` (R68). -/
def expandClear (b : Buf) (k : Arg) : List Instr := [.set b k false]

/-- The commands a written line stands for (R68), the operands in the order of R61; a line of another form
stands for none. -/
def assemble (m : Mnemonic) (ops : List AsmOperand) : Option (List Instr) :=
  match m, ops with
  | .alloc, [b, n] => do return [.alloc (← b.asBuf) (← n.asArg)]
  | .get, [b, k] => do return [.get (← b.asBuf) (← k.asArg)]
  | .set, [b, k, v] => do return [.set (← b.asBuf) (← k.asArg) (← v.asBit)]
  | .flip, [b, k] => do return [.flip (← b.asBuf) (← k.asArg)]
  | .rdword, [b, j] => do return [.rdword (← b.asBuf) (← j.asArg)]
  | .encode, [len] => do return [.encode (← len.asArg)]
  | .decode, [len] => do return [.decode (← len.asArg)]
  | .encb, [d] => do return [.encb (← d.asBlock 4)]
  | .decb, [c] => do return [.decb (← c.asBlock 8)]
  | .rdrpt, [i] => do return [.rdrpt (← i.asArg)]
  | .rdreg, [r] => do return [.rdreg (← r.asArg)]
  | .load, [b, .bits bs] => do
    if bs.length < 2 ^ 16 then return expandLoad (← b.asBuf) bs else none
  | .inject, [k] => do return expandInject (← k.asArg)
  | .clear, [b, k] => do return expandClear (← b.asBuf) (← k.asArg)
  | _, _ => none

/-- Run commands one after another, as the host issues them (10_state.md R21; 70_reset_and_hazards.md R153); `ex` is
what a command does. -/
def execAll (ex : Instr → State → Outcome) (cmds : List Instr) (s : State) : Outcome :=
  match cmds with
  | [] => .next s
  | i :: rest =>
    match ex i s with
    | .next t => execAll ex rest t
    | .fault r => .fault r
    | .refused r => .refused r

end Sys2Proof.Machine
end

