-- ==== Sys2Proof/Safety.lean ====
section
/-! DEFINITION. Safety.lean: the terms the claims use: the invariant of every reachable state, the machine at any
legal capacity, the values the spec writes out as tables, and what a violation leaves. -/

namespace Sys2Proof.Machine

/-! ### Tables of the spec -/

/-- The sixteen report entries that can occur, as 30_encoding.md R59 lists them. -/
def legalReports : List ReportEntry :=
  [0x00, 0x71, 0x6A, 0x63, 0x5C, 0x55, 0x4E, 0x47, 0x81, 0x82, 0x83, 0x84, 0x85, 0x86, 0x87, 0xF8]

/-- The sixteen codewords, by data nibble, as 41_encoder.md R92 lists them. -/
def codewords : List CodeBlock :=
  [0x00, 0x0F, 0x33, 0x3C, 0x55, 0x5A, 0x66, 0x69, 0x96, 0x99, 0xA5, 0xAA, 0xC3, 0xCC, 0xF0, 0xFF]

/-- `parity(x)`, the XOR of all eight bits (30_encoding.md R53, 42_decoder.md R103). -/
def parity8 (x : BitVec 8) : Bool :=
  x.getLsbD 0 ^^ x.getLsbD 1 ^^ x.getLsbD 2 ^^ x.getLsbD 3 ^^ x.getLsbD 4 ^^ x.getLsbD 5 ^^ x.getLsbD 6 ^^
    x.getLsbD 7

/-- The number of ones of a block (41_encoder.md R94). -/
def onesCount (x : BitVec 8) : Nat := ((List.range 8).filter x.getLsbD).length

/-- The error patterns of `n` wrong positions (42_decoder.md R116). -/
def patternsOfWeight (n : Nat) : List (BitVec 8) :=
  ((List.range 256).map (BitVec.ofNat 8)).filter (fun e => onesCount e = n)

/-- The number of a buffer (10_state.md R10), as an integer. -/
def bufIndex (b : Buf) : Nat :=
  match b with
  | .din => 0
  | .cw => 1
  | .dout => 2

/-! ### The invariant -/

/-- No bit beyond the length of the buffer is 1 (10_state.md R14). -/
def Buffer.Padded (x : Buffer) : Prop := ∀ k, x.len.toNat ≤ k → bitRead x.words k = false

/-- A buffer as every reachable state has it: canonical storage, a length within capacity (R13), zero padding. -/
structure Buffer.Ok (cap : Nat) (x : Buffer) : Prop where
  canonical : Memory.wf x.words = true
  fits : x.len.toNat ≤ cap
  padded : x.Padded

/-- `FAULT` as R17 says it: `CAUSE` is 0 while `V = 0`, and one of the four causes otherwise (R130). -/
def FaultReg.Ok (f : FaultReg) : Prop :=
  (f.v = false → f.cause = 0) ∧ (f.v = true → 1 ≤ f.cause.toNat ∧ f.cause.toNat ≤ 4)

/-- The invariant of the core at `NBLK_MAX = nblk` (R13, R14, R15, R16, R17; 30_encoding.md R59). -/
structure CoreState.Ok (nblk : Nat) (c : CoreState) : Prop where
  buffers : ∀ b, (c.buf b).Ok (capacity nblk b)
  logged : c.rpt.length = c.nrpt.toNat
  logFits : c.nrpt.toNat ≤ nblk
  logLegal : ∀ e ∈ c.rpt, e ∈ legalReports
  faultOk : c.fault.Ok

/-- A response as 30_encoding.md R66 allows it. -/
def Response.Ok (r : Response) : Prop :=
  r.rpt ∈ legalReports ∧ (r.err = false → r.cause = 0) ∧
    (r.err = true → 1 ≤ r.cause.toNat ∧ r.cause.toNat ≤ 4 ∧ r.rpt = 0 ∧ r.data = 0)

/-- The invariant of the machine at `NBLK_MAX = nblk`. -/
structure Inv (nblk : Nat) (s : State) : Prop where
  core : s.core.Ok nblk
  answers : ∀ r ∈ s.responses, r.Ok

/-! ### The machine at any capacity

`ALLOC` is the only command that reads `NBLK_MAX` (assumption log 1). -/

/-- `exec` at `NBLK_MAX = nblk`. -/
def execAt (nblk : Nat) (i : Instr) (s : State) : Outcome :=
  match i with
  | .alloc b n => execAllocAt nblk b n s
  | .get b k => exec (.get b k) s
  | .set b k v => exec (.set b k v) s
  | .flip b k => exec (.flip b k) s
  | .rdword b j => exec (.rdword b j) s
  | .encode len => exec (.encode len) s
  | .decode len => exec (.decode len) s
  | .encb d => exec (.encb d) s
  | .decb c => exec (.decb c) s
  | .rdrpt k => exec (.rdrpt k) s
  | .rdreg r => exec (.rdreg r) s

/-- `step` at `NBLK_MAX = nblk`. -/
def stepAt (nblk : Nat) (s : State) : Outcome := takeRequest (runCommand (execAt nblk)) s

/-! ### What a command leaves -/

/-- The state after a violation with cause code `code` (60_exceptions.md R133): only `FAULT`, if `V = 0`, and the
response. -/
def afterViolation (code : BitVec 3) (s : State) : State :=
  { core := { s.core with fault := if s.core.fault.v then s.core.fault else { v := true, cause := code } }
    pending := s.pending
    responses := s.responses ++ [{ err := true, cause := code, rpt := 0, data := 0 }] }

/-- The state after a command that is performed and leaves the core as it is (R66, R67). -/
def afterRead (data : BitVec 16) (rpt : ReportEntry) (s : State) : State :=
  { core := s.core
    pending := s.pending
    responses := s.responses ++ [{ err := false, cause := 0, rpt := rpt, data := data }] }

/-- Performed with response `DATA = data`, `RPT = 0`, and nothing but buffer `b` changed: the frame of the commands
that write one buffer (10_state.md R26). -/
def OnlyBufferChanged (b : Buf) (data : BitVec 16) (s t : State) : Prop :=
  (∀ b', b' ≠ b → t.core.buf b' = s.core.buf b') ∧ t.core.rpt = s.core.rpt ∧ t.core.nrpt = s.core.nrpt ∧
    t.core.fault = s.core.fault ∧ t.pending = s.pending ∧
    t.responses = s.responses ++ [{ err := false, cause := 0, rpt := 0, data := data }]

/-- The command word with these fields, as an integer (30_encoding.md R60, R61). -/
def commandWord (op b v arg : Nat) : CmdWord := BitVec.ofNat 32 (op * 2 ^ 28 + b * 2 ^ 26 + v * 2 ^ 16 + arg)

/-- The reserved and unused fields of a command word, test by test as 30_encoding.md R63 lists them, on the integer
`w`. -/
def RejectedByR63 (w : Nat) : Prop :=
  let op := w / 2 ^ 28
  let b := w / 2 ^ 26 % 4
  let z := w / 2 ^ 17 % 512
  let v := w / 2 ^ 16 % 2
  let arg := w % 2 ^ 16
  op = 0 ∨ 0xC ≤ op ∨ z ≠ 0 ∨ (1 ≤ op ∧ op ≤ 5 ∧ b = 3) ∨ (6 ≤ op ∧ op ≤ 0xB ∧ b ≠ 0) ∨ (op ≠ 3 ∧ v ≠ 0) ∨
    (op = 8 ∧ arg / 16 ≠ 0) ∨ (op = 9 ∧ arg / 256 ≠ 0) ∨ (op = 0xB ∧ 4 < arg)

end Sys2Proof.Machine
end

