-- ==== Sys2Proof/Certificates/Slice0/Obligations.lean ====
section
/-! DEFINITION. Certificates/Slice0/Obligations.lean: the statements for the provers. Cause codes: 1 `CV_LENGTH`,
2 `CV_INDEX`, 3 `CV_CAPACITY`, 4 `CV_COMMAND` (60_exceptions.md R130). -/

open Sys2Proof Sys2Proof.Machine

/-! ### Command words -/

/-- Decoding the word of a well-formed command gives the command back, every operand at every value (30_encoding.md
R60 to R63). -/
def Obligations.EncodeThenDecodeGivesCommandBack : Prop :=
  ∀ i : Instr, i.wf = true → decode (encode i) = .ok i

/-- A word that decodes is the word of the command it decodes to, so no two words mean one command (R60 to R63). -/
def Obligations.DecodedWordIsItsEncoding : Prop :=
  ∀ (w : CmdWord) (i : Instr), decode w = .ok i → encode i = w ∧ i.wf = true

/-- The decoder accepts a word exactly when it lies in a row of spec/opcode_table.json and meets the row's constraint
(`BUF` not 3, `RDREG` number at most 4), and the command is that row's. -/
def Obligations.DecodeAcceptsExactlyTheOpcodeTable : Prop :=
  ∀ w : CmdWord,
    (∀ i, decode w = .ok i → ∀ row ∈ opcodeTable, (row.has w = true ↔ row.mnemonic = mnemonicOf i)) ∧
    ((∃ i, decode w = .ok i) ↔
      (∃ row ∈ opcodeTable, row.has w = true) ∧ (w.toNat / 2 ^ 28 ≤ 5 → w.toNat / 2 ^ 26 % 4 ≠ 3) ∧
        (w.toNat / 2 ^ 28 = 0xB → w.toNat % 2 ^ 16 ≤ 4))

/-- Command words written out in the spec (R61; the examples of R70 to R74, R93, R95, R110, R112, R120, R121) decode to
the commands they stand for. -/
def Obligations.WordsOfTheSpecDecode : Prop :=
  decode 0x10000004 = .ok (.alloc .din 4) ∧ decode 0x24000004 = .ok (.get .cw 4) ∧
    decode 0x30010003 = .ok (.set .din 3 true) ∧ decode 0x44000002 = .ok (.flip .cw 2) ∧
    decode 0x58000001 = .ok (.rdword .dout 1) ∧ decode 0x60000004 = .ok (.encode 4) ∧
    decode 0x70000008 = .ok (.decode 8) ∧ decode 0x8000000D = .ok (.encb 0xD) ∧
    decode 0x900000EC = .ok (.decb 0xEC) ∧ decode 0xA0000001 = .ok (.rdrpt 1) ∧
    decode 0xB0000004 = .ok (.rdreg 4)

/-- A word that a test of R63 rejects takes `CV_COMMAND` with no other effect, and every other word is a command that
is executed: the decoder is total (R63, R64). -/
def Obligations.RejectedWordTakesCommandViolation : Prop :=
  ∀ (s : State) (w : CmdWord) (rest : List HostRequest), s.pending = .command w :: rest →
    (RejectedByR63 w.toNat → step s = .next (afterViolation 4 { s with pending := rest })) ∧
    (¬ RejectedByR63 w.toNat → ∃ i, decode w = .ok i ∧ step s = exec i { s with pending := rest })

/-! ### Steps -/

/-- A step takes the oldest request: a command word that decodes is executed by `exec` on the state without it, a
reset request is obeyed, and with nothing asked the state stays (the last is the model's reading, log 4). -/
def Obligations.StepTakesOldestRequest : Prop :=
  ∀ s : State,
    (∀ w rest i, s.pending = .command w :: rest → decode w = .ok i →
      step s = exec i { s with pending := rest }) ∧
    (∀ rest, s.pending = .reset :: rest →
      step s = .next { core := CoreState.reset, pending := rest, responses := s.responses }) ∧
    (s.pending = [] → step s = .next s)

/-- Reset leaves every buffer empty and every storage word 0, no readable report, and no fault, and a reset request
brings the core there without a response (10_state.md R25, 70_reset_and_hazards.md R150). -/
def Obligations.ResetLeavesEmptyCore : Prop :=
  (∀ b, (State.reset.core.buf b).len = 0 ∧ ∀ j, (State.reset.core.buf b).words.read j = 0) ∧
    State.reset.core.nrpt = 0 ∧ State.reset.core.fault.v = false ∧ State.reset.core.fault.cause = 0 ∧
    (∀ i, exec (.rdrpt i) State.reset = .next (afterViolation 2 State.reset)) ∧
    (∀ b k, exec (.get b k) State.reset = .next (afterViolation 2 State.reset)) ∧
    (∀ (s : State) rest, s.pending = .reset :: rest →
      ∃ t, step s = .next t ∧ t.core = State.reset.core ∧ t.pending = rest ∧ t.responses = s.responses)

/-- Every command word, legal or not, is taken and gets exactly one response, with `CAUSE = 0` if it was performed and
with a cause and no result if it was not (70_reset_and_hazards.md R155, 30_encoding.md R66). -/
def Obligations.EveryCommandGetsOneResponse : Prop :=
  ∀ (s : State) (w : CmdWord) (rest : List HostRequest), s.pending = .command w :: rest →
    ∃ t r, step s = .next t ∧ t.pending = rest ∧ t.responses = s.responses ++ [r] ∧
      (r.err = false → r.cause = 0) ∧
      (r.err = true → 1 ≤ r.cause.toNat ∧ r.cause.toNat ≤ 4 ∧ r.rpt = 0 ∧ r.data = 0)

/-- The packed response word `{ERR, CAUSE, 0000, RPT, DATA}` (R66). -/
def Obligations.PackedResponseFields : Prop :=
  ∀ r : Response,
    r.pack.toNat = r.err.toNat * 2 ^ 31 + r.cause.toNat * 2 ^ 28 + r.rpt.toNat * 2 ^ 16 + r.data.toNat

/-! ### Bit-buffer commands -/

/-- `ALLOC b, n` at every legal capacity: up to `CAP[b]` buffer `b` gets length `n`, every word of it becomes 0 and
every bit reads 0, and nothing else changes; above `CAP[b]` nothing but `CV_CAPACITY` happens (40_buffer_ops.md R70). -/
def Obligations.AllocClearsBufferAtEveryCapacity : Prop :=
  ∀ (nblk : Nat) (b : Buf) (n : Arg) (s : State), Config.NblkLegal nblk →
    let cap := match b with
      | .din => 4 * nblk
      | .cw => 8 * nblk
      | .dout => 4 * nblk
    decode (commandWord 1 (bufIndex b) 0 n.toNat) = .ok (.alloc b n) ∧
    (n.toNat ≤ cap → ∃ t, execAt nblk (.alloc b n) s = .next t ∧ OnlyBufferChanged b 0 s t ∧
      (t.core.buf b).len = n ∧ (∀ j, (t.core.buf b).words.read j = 0) ∧
      ∀ k, bitRead (t.core.buf b).words k = false) ∧
    (cap < n.toNat → execAt nblk (.alloc b n) s = .next (afterViolation 3 s))

/-- This machine is one of the machines at a legal capacity (the model's choice of `nblkMax`, log 1; 00_scope.md R5): its
commands and its steps are those at `nblkMax`, and its `ALLOC` completes exactly up to the capacities of `nblkMax`. -/
def Obligations.MachineIsOneLegalCapacity : Prop :=
  Config.NblkLegal nblkMax ∧ 4 ≤ nblkMax ∧ (∀ i s, execAt nblkMax i s = exec i s) ∧
    (∀ s, stepAt nblkMax s = step s) ∧
    (∀ b n s, n.toNat ≤ capacity nblkMax b → ∃ t, exec (.alloc b n) s = .next t ∧ OnlyBufferChanged b 0 s t ∧
      (t.core.buf b).len = n ∧ ∀ j, (t.core.buf b).words.read j = 0) ∧
    ∀ b n s, capacity nblkMax b < n.toNat → exec (.alloc b n) s = .next (afterViolation 3 s)

/-- `GET b, k` answers bit `7 - k%8` of word `k/8` and changes nothing; from `LEN[b]` on it is `CV_INDEX` (R71,
20_memory.md R32). -/
def Obligations.GetAnswersTheBit : Prop :=
  ∀ (b : Buf) (k : Arg) (s : State),
    decode (commandWord 2 (bufIndex b) 0 k.toNat) = .ok (.get b k) ∧
    (k.toNat < (s.core.buf b).len.toNat →
      exec (.get b k) s = .next (afterRead
        (BitVec.ofNat 16 (((s.core.buf b).words.read (k.toNat / 8)).toNat / 2 ^ (7 - k.toNat % 8) % 2)) 0 s)) ∧
    ((s.core.buf b).len.toNat ≤ k.toNat → exec (.get b k) s = .next (afterViolation 2 s))

/-- `SET b, k, v` makes that bit `v` and no other: word `k/8` gets bit `7 - k%8` and keeps the rest, every other bit,
word and buffer, the lengths, the reports and `FAULT` stay; from `LEN[b]` on it is `CV_INDEX` (R72, 20_memory.md R33). -/
def Obligations.SetWritesOneBit : Prop :=
  ∀ (b : Buf) (k : Arg) (v : Bool) (s : State),
    decode (commandWord 3 (bufIndex b) v.toNat k.toNat) = .ok (.set b k v) ∧
    (k.toNat < (s.core.buf b).len.toNat → ∃ t, exec (.set b k v) s = .next t ∧ OnlyBufferChanged b 0 s t ∧
      (t.core.buf b).len = (s.core.buf b).len ∧
      (∀ k', bitRead (t.core.buf b).words k' = if k' = k.toNat then v else bitRead (s.core.buf b).words k') ∧
      (∀ j i, i < 8 → ((t.core.buf b).words.read j).getLsbD i =
        if j = k.toNat / 8 ∧ i = 7 - k.toNat % 8 then v else ((s.core.buf b).words.read j).getLsbD i)) ∧
    ((s.core.buf b).len.toNat ≤ k.toNat → exec (.set b k v) s = .next (afterViolation 2 s))

/-- `FLIP b, k` inverts that bit and no other; from `LEN[b]` on it is `CV_INDEX` (R73). -/
def Obligations.FlipInvertsOneBit : Prop :=
  ∀ (b : Buf) (k : Arg) (s : State),
    decode (commandWord 4 (bufIndex b) 0 k.toNat) = .ok (.flip b k) ∧
    (k.toNat < (s.core.buf b).len.toNat → ∃ t, exec (.flip b k) s = .next t ∧ OnlyBufferChanged b 0 s t ∧
      (t.core.buf b).len = (s.core.buf b).len ∧
      ∀ k', bitRead (t.core.buf b).words k' =
        if k' = k.toNat then !bitRead (s.core.buf b).words k' else bitRead (s.core.buf b).words k') ∧
    ((s.core.buf b).len.toNat ≤ k.toNat → exec (.flip b k) s = .next (afterViolation 2 s))

/-- `RDWORD b, j` answers the bits `j*8 .. j*8+7`, index `j*8` most significant, zero-extended, and 0 for bits beyond
`LEN[b]` of a padded buffer; a word with no index in range is `CV_INDEX` (R74, 20_memory.md R34, 10_state.md R14). -/
def Obligations.RdwordAnswersEightBits : Prop :=
  ∀ (b : Buf) (j : Arg) (s : State),
    decode (commandWord 5 (bufIndex b) 0 j.toNat) = .ok (.rdword b j) ∧
    (j.toNat * 8 < (s.core.buf b).len.toNat → ∃ data, exec (.rdword b j) s = .next (afterRead data 0 s) ∧
      (∀ o, o < 8 → data.getLsbD (7 - o) = bitRead (s.core.buf b).words (j.toNat * 8 + o)) ∧
      (∀ i, 8 ≤ i → data.getLsbD i = false) ∧
      ((s.core.buf b).Padded → ∀ o, o < 8 → (s.core.buf b).len.toNat ≤ j.toNat * 8 + o →
        data.getLsbD (7 - o) = false)) ∧
    ((s.core.buf b).len.toNat ≤ j.toNat * 8 → exec (.rdword b j) s = .next (afterViolation 2 s))

/-- The laws (a) to (e) of the three primitives (R75): read after write, other bits stay, writing what is there and
inverting twice leave the whole core as it was (these two on storage in canonical form). -/
def Obligations.LawsOfGetSetFlip : Prop :=
  ∀ (b : Buf) (k k' : Arg) (v : Bool) (d : BitVec 16) (s t : State),
    k.toNat < (s.core.buf b).len.toNat → k'.toNat < (s.core.buf b).len.toNat →
    (exec (.set b k v) s = .next t →
      exec (.get b k) t = .next (afterRead (BitVec.ofNat 16 v.toNat) 0 t)) ∧
    (k' ≠ k → exec (.set b k v) s = .next t ∨ exec (.flip b k) s = .next t →
      exec (.get b k') s = .next (afterRead d 0 s) → exec (.get b k') t = .next (afterRead d 0 t)) ∧
    ((s.core.buf b).words.wf = true →
      exec (.get b k) s = .next (afterRead (BitVec.ofNat 16 v.toNat) 0 s) → exec (.set b k v) s = .next t →
      t.core = s.core) ∧
    (exec (.flip b k) s = .next t → exec (.get b k) s = .next (afterRead (BitVec.ofNat 16 v.toNat) 0 s) →
      exec (.get b k) t = .next (afterRead (BitVec.ofNat 16 (!v).toNat) 0 t)) ∧
    ((s.core.buf b).words.wf = true → exec (.flip b k) s = .next t →
      ∃ u, exec (.flip b k) t = .next u ∧ u.core = s.core)

/-- With `W = 8` codeword block `i` is storage word `i`, and data block `i` is the high nibble of word `i/2` when `i` is
even and the low nibble when it is odd (20_memory.md R38). -/
def Obligations.BlocksAreWordsAndNibbles : Prop :=
  ∀ (m : Memory) (i : Nat),
    readCode m i = m.read i ∧
    (readData m i).toNat = if i % 2 = 0 then (m.read (i / 2)).toNat / 16 else (m.read (i / 2)).toNat % 16

/-! ### Encoder -/

/-- `ENCB d` answers the codeword of `d` by the equations of R90 and changes nothing (41_encoder.md R93, R90). -/
def Obligations.EncbAnswersTheCodeword : Prop :=
  ∀ (d : DataBlock) (s : State),
    decode (commandWord 8 0 0 d.toNat) = .ok (.encb d) ∧
    ∃ c : CodeBlock, exec (.encb d) s = .next (afterRead (c.setWidth 16) 0 s) ∧
      blockPos c 0 = blockPos d 0 ∧ blockPos c 1 = blockPos d 1 ∧ blockPos c 2 = blockPos d 2 ∧
      blockPos c 3 = (blockPos d 0 ^^ blockPos d 1 ^^ blockPos d 2) ∧ blockPos c 4 = blockPos d 3 ∧
      blockPos c 5 = (blockPos d 0 ^^ blockPos d 1 ^^ blockPos d 3) ∧
      blockPos c 6 = (blockPos d 0 ^^ blockPos d 2 ^^ blockPos d 3) ∧
      blockPos c 7 = (blockPos c 0 ^^ blockPos c 1 ^^ blockPos c 2 ^^ blockPos c 3 ^^ blockPos c 4 ^^ blockPos c 5 ^^
        blockPos c 6)

/-- The table of the code (41_encoder.md R92) and its properties (a) to (f) (R94): linear, injective with the data at positions 0, 1, 2, 4, weights 0, 4, 8
and distance at least 4, even weight, syndrome and mismatch 0, closed under complement. -/
def Obligations.PropertiesOfTheCode : Prop :=
  (∀ x y, encodeData (x ^^^ y) = encodeData x ^^^ encodeData y) ∧ encodeData 0 = 0 ∧
    (∀ x y, encodeData x = encodeData y → x = y) ∧
    (∀ d, dataOfBits (blockPos (encodeData d) 0) (blockPos (encodeData d) 1) (blockPos (encodeData d) 2)
      (blockPos (encodeData d) 4) = d) ∧
    (∀ d, onesCount (encodeData d) = 0 ∨ onesCount (encodeData d) = 4 ∨ onesCount (encodeData d) = 8) ∧
    (∀ x y, x ≠ y → 4 ≤ onesCount (encodeData x ^^^ encodeData y)) ∧
    (∀ d, parity8 (encodeData d) = false) ∧
    (∀ d, syndrome (encodeData d) = 0 ∧ mismatch (encodeData d) = false) ∧
    (∀ d, ∃ e, ~~~encodeData d = encodeData e) ∧ ∀ d, codewords[d.toNat]? = some (encodeData d)

/-- `ENCODE len`: a length that is no multiple of 4 is `CV_LENGTH`, another above `LEN[DIN]` is `CV_INDEX`, and neither
does anything else; otherwise `CW` gets length `2*len`, codeword block `i` is `enc84` of data block `i` of `DIN` for each
`i < len/4`, every later bit of `CW` is 0, the response is `2*len`, and nothing else changes (41_encoder.md R95, R97). The
premise on `LEN[DIN]` is part of the invariant. -/
def Obligations.EncodeFillsTheCodewordBuffer : Prop :=
  ∀ (len : Arg) (s : State),
    decode (commandWord 6 0 0 len.toNat) = .ok (.encode len) ∧
    (len.toNat % 4 ≠ 0 → exec (.encode len) s = .next (afterViolation 1 s)) ∧
    (len.toNat % 4 = 0 → s.core.din.len.toNat < len.toNat → exec (.encode len) s = .next (afterViolation 2 s)) ∧
    ∀ nblk, Config.NblkLegal nblk → s.core.din.len.toNat ≤ 4 * nblk →
      len.toNat % 4 = 0 → len.toNat ≤ s.core.din.len.toNat →
      ∃ t, exec (.encode len) s = .next t ∧ OnlyBufferChanged .cw (BitVec.ofNat 16 (2 * len.toNat)) s t ∧
        t.core.cw.len.toNat = 2 * len.toNat ∧
        (∀ i, i < len.toNat / 4 → readCode t.core.cw.words i =
          enc84 (bitRead s.core.din.words (4 * i)) (bitRead s.core.din.words (4 * i + 1))
            (bitRead s.core.din.words (4 * i + 2)) (bitRead s.core.din.words (4 * i + 3))) ∧
        ∀ k, 2 * len.toNat ≤ k → bitRead t.core.cw.words k = false



/-- No codec memory (10_state.md R24): what `ENCODE len` leaves in `CW` and answers is the same for any two states whose
`DIN` agrees on the first `len` bits, and what `DECODE len` leaves in `DOUT`, in the log and in the first `len` bits of
`CW`, and answers, is the same for any two states whose `CW` agrees on them. -/
def Obligations.ResultsDependOnSourceBitsOnly : Prop :=
  ∀ (len : Arg) (s s' t t' : State),
    (len.toNat % 4 = 0 → len.toNat ≤ s.core.din.len.toNat → len.toNat ≤ s'.core.din.len.toNat →
      (∀ k, k < len.toNat → bitRead s.core.din.words k = bitRead s'.core.din.words k) →
      exec (.encode len) s = .next t → exec (.encode len) s' = .next t' →
      t.core.cw = t'.core.cw ∧ ∃ r, t.responses = s.responses ++ [r] ∧ t'.responses = s'.responses ++ [r]) ∧
    (len.toNat % 8 = 0 → len.toNat ≤ s.core.cw.len.toNat → len.toNat ≤ s'.core.cw.len.toNat →
      (∀ k, k < len.toNat → bitRead s.core.cw.words k = bitRead s'.core.cw.words k) →
      exec (.decode len) s = .next t → exec (.decode len) s' = .next t' →
      t.core.dout = t'.core.dout ∧ t.core.rpt = t'.core.rpt ∧ t.core.nrpt = t'.core.nrpt ∧
        (∀ k, k < len.toNat → bitRead t.core.cw.words k = bitRead t'.core.cw.words k) ∧
        ∃ r, t.responses = s.responses ++ [r] ∧ t'.responses = s'.responses ++ [r])

/-! ### Decoder -/

/-- `DECB c` follows the four steps (42_decoder.md R101, R102, R104, R107, R110): `s = 4*c3 + 2*c2 + c1` from the three
checks, `m` from the overall parity; with `m = 1` and `s` not 0 position `7 - s` is inverted, otherwise the block stays;
the data are positions 0, 1, 2, 4 of the result; the response is `{block, 0000, data}` with the report
`{CLASS, POS, S}` of the row of `(m, s)`; the state is unchanged. -/
def Obligations.DecbFollowsThePolicyTable : Prop :=
  ∀ (c : CodeBlock) (s : State),
    let c1 := blockPos c 6 ^^ blockPos c 4 ^^ blockPos c 2 ^^ blockPos c 0
    let c2 := blockPos c 5 ^^ blockPos c 4 ^^ blockPos c 1 ^^ blockPos c 0
    let c3 := blockPos c 3 ^^ blockPos c 2 ^^ blockPos c 1 ^^ blockPos c 0
    let sy := 4 * c3.toNat + 2 * c2.toNat + c1.toNat
    let obs := blockPos c 0 ^^ blockPos c 1 ^^ blockPos c 2 ^^ blockPos c 3 ^^ blockPos c 4 ^^ blockPos c 5 ^^
      blockPos c 6
    let m := obs ^^ blockPos c 7
    let c' := if m = true ∧ sy ≠ 0 then flipPos c (7 - sy) else c
    let cls := if m then (if sy = 0 then 3 else 1) else (if sy = 0 then 0 else 2)
    let pos := if m then 7 - sy else 0
    let d := 8 * (blockPos c' 0).toNat + 4 * (blockPos c' 1).toNat + 2 * (blockPos c' 2).toNat + (blockPos c' 4).toNat
    decode (commandWord 9 0 0 c.toNat) = .ok (.decb c) ∧
    exec (.decb c) s = .next (afterRead (BitVec.ofNat 16 (c'.toNat * 256 + d))
      (BitVec.ofNat 8 (cls * 64 + pos * 8 + sy)) s)

/-- The integer forms of the decoder (42_decoder.md R103, R105; 30_encoding.md R54): the checks are the parities under the
masks `0xAA`, `0xCC`, `0xF0`, `m` is the parity of the byte, inverting position `7 - s` inverts integer bit `s`, the
syndrome of a codeword with position `p` inverted is `7 - p`; and the 256 blocks fall 16, 112, 16 and 112 into the four
classes (R108). -/
def Obligations.IntegerFormsOfTheDecoder : Prop :=
  (∀ c : CodeBlock, check1 c = parity8 (c &&& 0xAA) ∧ check2 c = parity8 (c &&& 0xCC) ∧
      check3 c = parity8 (c &&& 0xF0) ∧ mismatch c = parity8 c ∧
      flipPos c (7 - (syndrome c).toNat) = c ^^^ BitVec.ofNat 8 (2 ^ (syndrome c).toNat)) ∧
    (∀ (d : DataBlock) (p : Fin 8), (syndrome (flipPos (encodeData d) p)).toNat = 7 - p ∧
      mismatch (flipPos (encodeData d) p) = true) ∧
    [BlockClass.none, .corrected, .parity, .double].map
      (fun k => (((List.range 256).map (BitVec.ofNat 8)).filter (fun c => classOf c = k)).length) = [16, 112, 16, 112]

/-- The sixteen report entries of 30_encoding.md R59 are the ones that occur, and from each `m`, `s` and the class can be
read back; `POS` is `7 - s` for `CORRECTED`, 7 for `PARITY` and 0 otherwise (R58). -/
def Obligations.ReportEntriesAreTheSixteen : Prop :=
  (∀ e, e ∈ legalReports ↔ ∃ c, (dec84 c).report = e) ∧
    ∀ c, reportSyndrome (dec84 c).report = syndrome c ∧ reportClass (dec84 c).report = (classOf c).code ∧
      (reportClass (dec84 c).report).getLsbD 0 = mismatch c ∧
      ((reportClass (dec84 c).report).getLsbD 1 ^^ (reportClass (dec84 c).report).getLsbD 0) =
        decide (syndrome c ≠ 0) ∧
      (reportPosField (dec84 c).report).toNat = match classOf c with
        | .none => 0
        | .corrected => 7 - (syndrome c).toNat
        | .double => 0
        | .parity => 7

/-- The guarantee of the code, (a) to (e) of 42_decoder.md R111: no error, one error at positions 0 .. 6, an error at
position 7, two errors, and that `NONE` and `CORRECTED` leave a codeword. -/
def Obligations.SingleErrorsCorrectedDoubleErrorsDetected : Prop :=
  (∀ d, dec84 (encodeData d) = { block := encodeData d, data := d, report := 0x00 }) ∧
    (∀ d (p : Fin 7), dec84 (flipPos (encodeData d) p) =
      { block := encodeData d, data := d, report := packReport .corrected p (BitVec.ofNat 3 (7 - p)) }) ∧
    (∀ d, dec84 (flipPos (encodeData d) 7) =
      { block := flipPos (encodeData d) 7, data := d, report := 0xF8 }) ∧
    (∀ d (p q : Fin 8), p ≠ q →
      classOf (flipPos (flipPos (encodeData d) p) q) = .double ∧
      (dec84 (flipPos (flipPos (encodeData d) p) q)).block = flipPos (flipPos (encodeData d) p) q ∧
      (dec84 (flipPos (flipPos (encodeData d) p) q)).report =
        packReport .double 0 (BitVec.ofNat 3 (7 - p) ^^^ BitVec.ofNat 3 (7 - q)) ∧
      ((dec84 (flipPos (flipPos (encodeData d) p) q)).data = d ↔
        (p = 3 ∨ p = 5 ∨ p = 6 ∨ p = 7) ∧ (q = 3 ∨ q = 5 ∨ q = 6 ∨ q = 7))) ∧
    (∀ c, classOf c = .none ∨ classOf c = .corrected → ∃ d, (dec84 c).block = encodeData d)

/-- Three or more errors (42_decoder.md R116): an odd number of wrong positions is `CORRECTED` or `PARITY`, an even number
`DOUBLE`, or `NONE` exactly when the pattern is itself a codeword; of the 56 patterns of three errors 49 are `CORRECTED`
and 7 `PARITY`, all with wrong data; of the 70 of four errors 14 are `NONE` and 56 `DOUBLE`. -/
def Obligations.MoreThanTwoErrorsAreNotGuaranteed : Prop :=
  ∀ d : DataBlock,
    (∀ e : CodeBlock, (onesCount e % 2 = 1 ↔
        classOf (encodeData d ^^^ e) = .corrected ∨ classOf (encodeData d ^^^ e) = .parity) ∧
      (classOf (encodeData d ^^^ e) = .none ↔ ∃ x, e = encodeData x) ∧
      (onesCount e = 3 → (dec84 (encodeData d ^^^ e)).data ≠ d)) ∧
    (patternsOfWeight 3).length = 56 ∧ (patternsOfWeight 4).length = 70 ∧
    ((patternsOfWeight 3).filter (fun e => classOf (encodeData d ^^^ e) = .corrected)).length = 49 ∧
    ((patternsOfWeight 3).filter (fun e => classOf (encodeData d ^^^ e) = .parity)).length = 7 ∧
    ((patternsOfWeight 4).filter (fun e => classOf (encodeData d ^^^ e) = .none)).length = 14 ∧
    ((patternsOfWeight 4).filter (fun e => classOf (encodeData d ^^^ e) = .double)).length = 56

/-- Decoding a block twice (42_decoder.md R117): the second time changes neither block nor data, reports `NONE` after
`NONE` or `CORRECTED`, and repeats a `DOUBLE` or `PARITY` report. -/
def Obligations.SecondDecodeOfABlock : Prop :=
  ∀ c, (dec84 (dec84 c).block).block = (dec84 c).block ∧ (dec84 (dec84 c).block).data = (dec84 c).data ∧
    (classOf c = .none ∨ classOf c = .corrected → (dec84 (dec84 c).block).report = 0x00) ∧
    (classOf c = .double ∨ classOf c = .parity →
      (dec84 c).block = c ∧ (dec84 (dec84 c).block).report = (dec84 c).report)

/-- `DECODE len` (42_decoder.md R112, R115): a length that is no multiple of 8 is `CV_LENGTH`, another above `LEN[CW]` is
`CV_INDEX`, and neither does anything else; otherwise, for each block `i < len/8`, block `i` of `CW`, data block `i` of `DOUT`
and `RPT[i]` become `dec84` of the old block `i` of `CW`; the bits of `CW` from `len` on, `LEN[CW]`, `DIN` and `FAULT`
stay; `DOUT` has length `len/2` and zeros beyond; `NRPT` and the response are `len/8`. -/
def Obligations.DecodeCorrectsInPlaceBlockByBlock : Prop :=
  ∀ (len : Arg) (s : State),
    decode (commandWord 7 0 0 len.toNat) = .ok (.decode len) ∧
    (len.toNat % 8 ≠ 0 → exec (.decode len) s = .next (afterViolation 1 s)) ∧
    (len.toNat % 8 = 0 → s.core.cw.len.toNat < len.toNat → exec (.decode len) s = .next (afterViolation 2 s)) ∧
    (len.toNat % 8 = 0 → len.toNat ≤ s.core.cw.len.toNat →
      ∃ t, exec (.decode len) s = .next t ∧
        (∀ i, i < len.toNat / 8 →
          readCode t.core.cw.words i = (dec84 (readCode s.core.cw.words i)).block ∧
          readData t.core.dout.words i = (dec84 (readCode s.core.cw.words i)).data ∧
          t.core.report i = (dec84 (readCode s.core.cw.words i)).report) ∧
        (∀ k, len.toNat ≤ k → bitRead t.core.cw.words k = bitRead s.core.cw.words k) ∧
        (∀ k, len.toNat / 2 ≤ k → bitRead t.core.dout.words k = false) ∧
        t.core.cw.len = s.core.cw.len ∧ t.core.dout.len.toNat = len.toNat / 2 ∧
        t.core.nrpt.toNat = len.toNat / 8 ∧ t.core.rpt.length = len.toNat / 8 ∧
        t.core.din = s.core.din ∧ t.core.fault = s.core.fault ∧ t.pending = s.pending ∧
        t.responses = s.responses ++
          [{ err := false, cause := 0, rpt := 0, data := BitVec.ofNat 16 (len.toNat / 8) }])

/-- A second `DECODE len` leaves `CW` and `DOUT` exactly as the first left them and overwrites the log: `CORRECTED` blocks
now report `NONE`, all others report the same (70_reset_and_hazards.md R157). -/
def Obligations.SecondDecodePassKeepsDataOverwritesLog : Prop :=
  ∀ (len : Arg) (s t : State), len.toNat % 8 = 0 → len.toNat ≤ s.core.cw.len.toNat →
    exec (.decode len) s = .next t →
    ∃ u, exec (.decode len) t = .next u ∧ u.core.cw = t.core.cw ∧ u.core.dout = t.core.dout ∧
      u.core.nrpt = t.core.nrpt ∧
      ∀ i, i < len.toNat / 8 →
        u.core.report i = if reportClass (t.core.report i) = 1 then 0x00 else t.core.report i

/-- `FLIP CW, k` inverts position `k%8` of codeword block `k/8` and leaves every other block: the host's fault injection
(42_decoder.md R114, 40_buffer_ops.md R73). -/
def Obligations.FlipInvertsOnePositionOfOneBlock : Prop :=
  ∀ (k : Arg) (s t : State), k.toNat < s.core.cw.len.toNat → exec (.flip .cw k) s = .next t →
    readCode t.core.cw.words (k.toNat / 8) = flipPos (readCode s.core.cw.words (k.toNat / 8)) (k.toNat % 8) ∧
    ∀ i, i ≠ k.toNat / 8 → readCode t.core.cw.words i = readCode s.core.cw.words i

/-- Round trip (41_encoder.md R98): `ENCODE len` then `DECODE 2*len`, with no bit of `CW` changed between, reports `NONE`
for every block, leaves `CW` as it was and makes `DOUT` the first `len` bits of `DIN`. The premise on `LEN[DIN]` is part
of the invariant. -/
def Obligations.RoundTripWithoutErrors : Prop :=
  ∀ (nblk : Nat) (len : Arg) (s t f : State), Config.NblkLegal nblk → s.core.din.len.toNat ≤ 4 * nblk →
    len.toNat % 4 = 0 → len.toNat ≤ s.core.din.len.toNat → exec (.encode len) s = .next t →
    f.core.cw = t.core.cw →
    ∃ u, exec (.decode (BitVec.ofNat 16 (2 * len.toNat))) f = .next u ∧ u.core.cw = t.core.cw ∧
      u.core.dout.len = len ∧ (∀ k, k < len.toNat → bitRead u.core.dout.words k = bitRead s.core.din.words k) ∧
      u.core.nrpt.toNat = len.toNat / 4 ∧ (∀ i, i < len.toNat / 4 → u.core.report i = 0x00) ∧
      u.core.fault = f.core.fault

/-- What the buffers hold after errors, block by block (42_decoder.md R114): after `ENCODE len`, let the host leave any
`CW` of the same length; `DECODE 2*len` gives in each block without error the data and `0x00`, with one error at
positions 0 .. 6 the encoded block, the data and that position, with one at 7 the data and `0xF8`, with two errors the
block as corrupted and `DOUBLE`. -/
def Obligations.ErrorsAreHandledBlockByBlock : Prop :=
  ∀ (nblk : Nat) (len : Arg) (s t f : State), Config.NblkLegal nblk → s.core.din.len.toNat ≤ 4 * nblk →
    len.toNat % 4 = 0 → len.toNat ≤ s.core.din.len.toNat → exec (.encode len) s = .next t →
    f.core.cw.len = t.core.cw.len →
    ∃ u, exec (.decode (BitVec.ofNat 16 (2 * len.toNat))) f = .next u ∧
      ∀ i, i < len.toNat / 4 →
        let sent := readCode t.core.cw.words i
        let got := readCode f.core.cw.words i
        let left := readCode u.core.cw.words i
        (got = sent → left = sent ∧ readData u.core.dout.words i = readData s.core.din.words i ∧
          u.core.report i = 0x00) ∧
        (∀ p, p < 7 → got = flipPos sent p →
          left = sent ∧ readData u.core.dout.words i = readData s.core.din.words i ∧
          u.core.report i = packReport .corrected p (BitVec.ofNat 3 (7 - p))) ∧
        (got = flipPos sent 7 →
          left = got ∧ readData u.core.dout.words i = readData s.core.din.words i ∧ u.core.report i = 0xF8) ∧
        (∀ p q, p < 8 → q < 8 → p ≠ q → got = flipPos (flipPos sent p) q →
          left = got ∧ readData u.core.dout.words i =
            dataOfBits (blockPos got 0) (blockPos got 1) (blockPos got 2) (blockPos got 4) ∧
          reportClass (u.core.report i) = 2)

/-- One injected error (42_decoder.md R114, the document's S2 and S4): `ENCODE len`, `FLIP CW, k`, `DECODE 2*len` make
`DOUT` the first `len` bits of `DIN`; a flip at positions 0 .. 6 is undone and reported with its position, a flip at
position 7 stays and is reported `0xF8`; every other block reports `NONE`. -/
def Obligations.OneInjectedErrorDoesNoHarm : Prop :=
  ∀ (nblk : Nat) (len k : Arg) (s t f : State), Config.NblkLegal nblk → s.core.din.len.toNat ≤ 4 * nblk →
    len.toNat % 4 = 0 → len.toNat ≤ s.core.din.len.toNat → k.toNat < 2 * len.toNat →
    exec (.encode len) s = .next t → exec (.flip .cw k) t = .next f →
    ∃ u, exec (.decode (BitVec.ofNat 16 (2 * len.toNat))) f = .next u ∧
      (∀ j, j < len.toNat → bitRead u.core.dout.words j = bitRead s.core.din.words j) ∧
      (∀ j, bitRead u.core.cw.words j =
        if k.toNat % 8 = 7 ∧ j = k.toNat then !bitRead t.core.cw.words j else bitRead t.core.cw.words j) ∧
      ∀ i, i < len.toNat / 4 → u.core.report i =
        if i ≠ k.toNat / 8 then 0x00
        else if k.toNat % 8 = 7 then 0xF8
        else packReport .corrected (k.toNat % 8) (BitVec.ofNat 3 (7 - k.toNat % 8))

/-! ### Status commands -/

/-- `RDRPT i` answers `RPT[i]` for `i < NRPT` and changes nothing, else `CV_INDEX`; and after a `DECODE len` that entry is
the report of block `i` of the `CW` it read (43_control_ops.md R120, 10_state.md R15, R16). -/
def Obligations.RdrptAnswersTheLoggedReport : Prop :=
  ∀ (i : Arg) (s : State),
    decode (commandWord 0xA 0 0 i.toNat) = .ok (.rdrpt i) ∧
    (i.toNat < s.core.nrpt.toNat → exec (.rdrpt i) s = .next (afterRead 0 (s.core.report i.toNat) s)) ∧
    (s.core.nrpt.toNat ≤ i.toNat → exec (.rdrpt i) s = .next (afterViolation 2 s)) ∧
    ∀ (len : Arg) (p : State), len.toNat % 8 = 0 → len.toNat ≤ p.core.cw.len.toNat → exec (.decode len) p = .next s →
      (i.toNat < len.toNat / 8 → exec (.rdrpt i) s =
        .next (afterRead 0 (dec84 (readCode p.core.cw.words i.toNat)).report s)) ∧
      (len.toNat / 8 ≤ i.toNat → exec (.rdrpt i) s = .next (afterViolation 2 s))

/-- `RDREG r` answers the register of 10_state.md R18 and changes nothing: the three lengths, `NRPT`, and `FAULT` as
`8*V + CAUSE`; the word of a number above 4 is rejected (43_control_ops.md R121). -/
def Obligations.RdregAnswersTheRegister : Prop :=
  ∀ s : State,
    exec (.rdreg 0) s = .next (afterRead s.core.din.len 0 s) ∧
    exec (.rdreg 1) s = .next (afterRead s.core.cw.len 0 s) ∧
    exec (.rdreg 2) s = .next (afterRead s.core.dout.len 0 s) ∧
    exec (.rdreg 3) s = .next (afterRead s.core.nrpt 0 s) ∧
    exec (.rdreg 4) s = .next (afterRead
      (BitVec.ofNat 16 (8 * s.core.fault.v.toNat + s.core.fault.cause.toNat)) 0 s) ∧
    (∀ r : Arg, r.toNat ≤ 4 → decode (commandWord 0xB 0 0 r.toNat) = .ok (.rdreg r)) ∧
    (∀ r : Arg, 4 < r.toNat → decode (commandWord 0xB 0 0 r.toNat) = .error .noSuchRegister ∧
      exec (.rdreg r) s = .next (afterViolation 4 s))

/-! ### Rules of the whole machine -/

/-- Violations are precise (60_exceptions.md R133): a command whose response has `ERR = 1` changed nothing but `FAULT`,
which takes the cause only if `V` was 0, and one whose response has `ERR = 0` left `FAULT` alone. -/
def Obligations.ViolationsArePrecise : Prop :=
  ∀ (i : Instr) (s t : State), exec i s = .next t →
    ∃ r, t.responses = s.responses ++ [r] ∧ t.pending = s.pending ∧
      (r.err = true → t = afterViolation r.cause s ∧ 1 ≤ r.cause.toNat ∧ r.cause.toNat ≤ 4) ∧
      (r.err = false → r.cause = 0 ∧ t.core.fault = s.core.fault)

/-- Which command raises which cause, and when (60_exceptions.md R131, in the order of R134), at every legal capacity:
the cause in the response of every command, and `ERR = 1` exactly when there is one. -/
def Obligations.EachCommandRaisesItsCauses : Prop :=
  ∀ (nblk : Nat) (i : Instr) (s : State), Config.NblkLegal nblk →
    ∃ t r, execAt nblk i s = .next t ∧ t.responses = s.responses ++ [r] ∧ (r.err = true ↔ r.cause ≠ 0) ∧
      r.cause = match i with
        | .alloc b n => if capacity nblk b < n.toNat then 3 else 0
        | .get b k => if (s.core.buf b).len.toNat ≤ k.toNat then 2 else 0
        | .set b k _ => if (s.core.buf b).len.toNat ≤ k.toNat then 2 else 0
        | .flip b k => if (s.core.buf b).len.toNat ≤ k.toNat then 2 else 0
        | .rdword b j => if (s.core.buf b).len.toNat ≤ j.toNat * 8 then 2 else 0
        | .encode len => if len.toNat % 4 ≠ 0 then 1 else if s.core.din.len.toNat < len.toNat then 2 else 0
        | .decode len => if len.toNat % 8 ≠ 0 then 1 else if s.core.cw.len.toNat < len.toNat then 2 else 0
        | .encb _ => 0
        | .decb _ => 0
        | .rdrpt k => if s.core.nrpt.toNat ≤ k.toNat then 2 else 0
        | .rdreg r => if 4 < r.toNat then 4 else 0

/-- Who writes what (10_state.md R26, R13): a buffer's content changes only by `ALLOC`, `SET`, `FLIP` of that buffer, `CW`
also by `ENCODE` and `DECODE`, `DOUT` also by `DECODE`; a length only by `ALLOC` of the buffer, `LEN[CW]` also by `ENCODE`,
`LEN[DOUT]` also by `DECODE`; the log and `NRPT` only by `DECODE`. -/
def Obligations.OnlyTheNamedCommandsWrite : Prop :=
  ∀ (i : Instr) (s t : State), exec i s = .next t →
    (∀ b, (t.core.buf b).len ≠ (s.core.buf b).len →
      (∃ n, i = .alloc b n) ∨ (b = .cw ∧ ∃ len, i = .encode len) ∨ (b = .dout ∧ ∃ len, i = .decode len)) ∧
    (∀ b, (t.core.buf b).words ≠ (s.core.buf b).words →
      (∃ n, i = .alloc b n) ∨ (∃ k v, i = .set b k v) ∨ (∃ k, i = .flip b k) ∨
        (b = .cw ∧ ∃ len, i = .encode len) ∨ (b ≠ .din ∧ ∃ len, i = .decode len)) ∧
    (t.core.rpt ≠ s.core.rpt ∨ t.core.nrpt ≠ s.core.nrpt → ∃ len, i = .decode len)

/-- Reading has no side effect (20_memory.md R39): `GET`, `RDWORD`, `RDRPT`, `RDREG`, `ENCB` and `DECB` that do not fault
leave the whole core unchanged, and issued again give the same response. -/
def Obligations.ReadsHaveNoSideEffect : Prop :=
  ∀ (i : Instr) (s t : State) (r : Response),
    (match i with
      | .get _ _ => True | .rdword _ _ => True | .rdrpt _ => True | .rdreg _ => True
      | .encb _ => True | .decb _ => True
      | .alloc _ _ => False | .set _ _ _ => False | .flip _ _ => False | .encode _ => False | .decode _ => False) →
    exec i s = .next t → t.responses = s.responses ++ [r] → r.err = false →
    t.core = s.core ∧ ∃ u, exec i t = .next u ∧ u.core = s.core ∧ u.responses = t.responses ++ [r]

/-- Only a reset request clears `FAULT` (43_control_ops.md R122, 10_state.md R17): a step from a state with `V = 1` that
takes anything else keeps `V` and `CAUSE`. -/
def Obligations.OnlyResetClearsFault : Prop :=
  ∀ s t : State, step s = .next t → s.core.fault.v = true → t.core.fault ≠ s.core.fault →
    ∃ rest, s.pending = .reset :: rest

/-- `FAULT` is the first cause of the run (10_state.md R17, 60_exceptions.md R135): after any number of steps without a
reset request, a fault register that was clear holds the cause of the first response with `ERR = 1` since, and stays
clear exactly when there was none; one that was set is unchanged. -/
def Obligations.FaultRecordsTheFirstViolationOfARun : Prop :=
  ∀ (n : Nat) (s t : State), (∀ q ∈ s.pending, q ≠ .reset) → Host.Core.run Sys2Proof.core n s = .next t →
    ∃ new, t.responses = s.responses ++ new ∧
      t.core.fault =
        if s.core.fault.v then s.core.fault
        else match new.find? (fun r => r.err) with
          | some r => { v := true, cause := r.cause }
          | none => s.core.fault

/-- The invariant holds at reset (10_state.md R14, R25), at every legal capacity. -/
def Obligations.InvariantAtReset : Prop := ∀ nblk, Config.NblkLegal nblk → Inv nblk State.reset

/-- Every step keeps the invariant, at every legal capacity, and so does the machine's (log 1): storage canonical, lengths within
capacity, zero padding, one legal log entry for each counted block, a legal `FAULT`, legal responses (10_state.md R13 to
R17; 30_encoding.md R59, R66). -/
def Obligations.StepKeepsInvariant : Prop :=
  (∀ nblk, Config.NblkLegal nblk → ∀ s t, Inv nblk s → stepAt nblk s = .next t → Inv nblk t) ∧
    ∀ s t, Inv nblkMax s → step s = .next t → Inv nblkMax t

/-- Storage stays within its words (10_state.md R11): in a core that meets the invariant, no word of a buffer from number
`NW[b] = ceil(CAP[b] / W)` on is listed. -/
def Obligations.StorageStaysWithinItsWords : Prop :=
  ∀ (nblk : Nat) (c : CoreState), c.Ok nblk → ∀ b, ∀ cell ∈ (c.buf b).words,
    cell.1 < numWords nblk b ∧ cell.1 * 8 < (c.buf b).len.toNat

/-- What cannot be told apart is equal (10_state.md R23): two cores that meet the invariant and agree on the lengths, on
every bit in range, on `NRPT`, on `RPT[0 .. NRPT-1]` and on `FAULT` are the same state. -/
def Obligations.IndistinguishableCoresAreEqual : Prop :=
  ∀ (nblk : Nat) (c c' : CoreState), c.Ok nblk → c'.Ok nblk →
    (∀ b, (c.buf b).len = (c'.buf b).len) →
    (∀ b k, k < (c.buf b).len.toNat → bitRead (c.buf b).words k = bitRead (c'.buf b).words k) →
    c.nrpt = c'.nrpt → (∀ i, i < c.nrpt.toNat → c.report i = c'.report i) → c.fault = c'.fault → c = c'

/-! ### Written commands -/

/-- The written forms of R68: each mnemonic with its operands stands for its command, a buffer may be written as its
number, a block as its bits position 0 first, `INJECT k` is `FLIP CW, k`, and `CLEAR b, k` is `SET b, k, 0`. -/
def Obligations.WrittenCommandsStandForCommands : Prop :=
  ∀ (b : Buf) (k : Arg) (v : Bool) (d : DataBlock) (c : CodeBlock),
    assemble .alloc [.buffer b, .int k.toNat] = some [.alloc b k] ∧
    assemble .get [.buffer b, .int k.toNat] = some [.get b k] ∧
    assemble .get [.int (bufIndex b), .int k.toNat] = some [.get b k] ∧
    assemble .set [.buffer b, .int k.toNat, .int v.toNat] = some [.set b k v] ∧
    assemble .flip [.buffer b, .int k.toNat] = some [.flip b k] ∧
    assemble .rdword [.buffer b, .int k.toNat] = some [.rdword b k] ∧
    assemble .encode [.int k.toNat] = some [.encode k] ∧ assemble .decode [.int k.toNat] = some [.decode k] ∧
    assemble .encb [.int d.toNat] = some [.encb d] ∧ assemble .decb [.int c.toNat] = some [.decb c] ∧
    assemble .encb [.bits [blockPos d 0, blockPos d 1, blockPos d 2, blockPos d 3]] = some [.encb d] ∧
    assemble .rdrpt [.int k.toNat] = some [.rdrpt k] ∧ assemble .rdreg [.int k.toNat] = some [.rdreg k] ∧
    assemble .inject [.int k.toNat] = some [.flip .cw k] ∧
    assemble .clear [.buffer b, .int k.toNat] = some [.set b k false]

/-- `LOAD b, bits` (R68), at every legal capacity: its commands, issued in order, leave buffer `b` with the length of the bit string and its bits,
index 0 first, and nothing else of the core changed; each is answered with `ERR = 0`. -/
def Obligations.LoadPlacesTheBits : Prop :=
  ∀ (nblk : Nat) (b : Buf) (bs : List Bool) (s : State), Config.NblkLegal nblk → bs.length ≤ capacity nblk b →
    assemble .load [.buffer b, .bits bs] = some (expandLoad b bs) ∧
    ∃ t, execAll (execAt nblk) (expandLoad b bs) s = .next t ∧ (t.core.buf b).len.toNat = bs.length ∧
      (∀ k, bitRead (t.core.buf b).words k = bs.getD k false) ∧
      (∀ b', b' ≠ b → t.core.buf b' = s.core.buf b') ∧ t.core.rpt = s.core.rpt ∧ t.core.nrpt = s.core.nrpt ∧
      t.core.fault = s.core.fault ∧
      t.responses = s.responses ++ List.replicate (bs.length + 1) { err := false, cause := 0, rpt := 0, data := 0 }
end

