-- ==== Sys2Proof/Laws/State.lean ====
section
/-! SUPPORT. Laws/State.lean: one lemma per field per update of the state, and what the two endings of a command
answer. -/

namespace Sys2Proof.Machine

variable (s : State) (c : CoreState) (b : Buf) (x : Buffer) (r : Response)

@[simp] theorem answer_core : (s.answer r).core = s.core := rfl
@[simp] theorem answer_pending : (s.answer r).pending = s.pending := rfl
@[simp] theorem answer_responses : (s.answer r).responses = s.responses ++ [r] := rfl

@[simp] theorem setBuf_core : (s.setBuf b x).core = s.core.setBuf b x := rfl
@[simp] theorem setBuf_pending : (s.setBuf b x).pending = s.pending := rfl
@[simp] theorem setBuf_responses : (s.setBuf b x).responses = s.responses := rfl

@[simp] theorem core_setBuf_rpt : (c.setBuf b x).rpt = c.rpt := by cases b <;> rfl
@[simp] theorem core_setBuf_nrpt : (c.setBuf b x).nrpt = c.nrpt := by cases b <;> rfl
@[simp] theorem core_setBuf_fault : (c.setBuf b x).fault = c.fault := by cases b <;> rfl
@[simp] theorem buf_setBuf_self : (c.setBuf b x).buf b = x := by cases b <;> rfl

theorem buf_setBuf_ne {b b' : Buf} (h : b' ≠ b) : (c.setBuf b x).buf b' = c.buf b' := by
  cases b <;> cases b' <;> first | rfl | exact absurd rfl h

/-- Putting a buffer's own content back changes nothing. -/
theorem setBuf_buf : c.setBuf b (c.buf b) = c := by cases b <;> rfl

@[simp] theorem setBuf_setBuf (y : Buffer) : (c.setBuf b x).setBuf b y = c.setBuf b y := by
  cases b <;> rfl

@[simp] theorem buf_din : c.buf .din = c.din := rfl
@[simp] theorem buf_cw : c.buf .cw = c.cw := rfl
@[simp] theorem buf_dout : c.buf .dout = c.dout := rfl

variable (len : Arg) (p : DecodePass)

@[simp] theorem decodedCore_din : (decodedCore c len p).din = c.din := rfl
@[simp] theorem decodedCore_cw : (decodedCore c len p).cw = { c.cw with words := p.cw } := rfl
@[simp] theorem decodedCore_dout :
    (decodedCore c len p).dout = { words := p.dout, len := BitVec.ofNat 16 (len.toNat / 2) } := rfl
@[simp] theorem decodedCore_rpt : (decodedCore c len p).rpt = p.rpt := rfl
@[simp] theorem decodedCore_nrpt : (decodedCore c len p).nrpt = BitVec.ofNat 16 (len.toNat / 8) := rfl
@[simp] theorem decodedCore_fault : (decodedCore c len p).fault = c.fault := rfl

/-- `FAULT` after a violation, as R133 writes it. -/
theorem latch_eq (f : FaultReg) (k : Cause) :
    f.latch k = if f.v then f else { v := true, cause := k.code } := rfl

/-- The fault action answers the state of R133. -/
theorem raiseCV_eq (k : Cause) : raiseCV k s = .next (afterViolation k.code s) := rfl

/-- A performed command that leaves the core answers `afterRead`. -/
theorem respond_eq (data : BitVec 16) (rpt : ReportEntry) :
    respond data rpt s = .next (afterRead data rpt s) := rfl

variable (code : BitVec 3) (data : BitVec 16) (rpt : ReportEntry)

@[simp] theorem afterRead_core : (afterRead data rpt s).core = s.core := rfl
@[simp] theorem afterRead_pending : (afterRead data rpt s).pending = s.pending := rfl
@[simp] theorem afterRead_responses :
    (afterRead data rpt s).responses =
      s.responses ++ [{ err := false, cause := 0, rpt := rpt, data := data }] := rfl

@[simp] theorem afterViolation_buf : (afterViolation code s).core.buf b = s.core.buf b := by cases b <;> rfl
@[simp] theorem afterViolation_rpt : (afterViolation code s).core.rpt = s.core.rpt := rfl
@[simp] theorem afterViolation_nrpt : (afterViolation code s).core.nrpt = s.core.nrpt := rfl
@[simp] theorem afterViolation_pending : (afterViolation code s).pending = s.pending := rfl
@[simp] theorem afterViolation_responses :
    (afterViolation code s).responses =
      s.responses ++ [{ err := true, cause := code, rpt := 0, data := 0 }] := rfl
@[simp] theorem afterViolation_fault :
    (afterViolation code s).core.fault =
      if s.core.fault.v then s.core.fault else { v := true, cause := code } := rfl

/-- The codes of the four causes lie in 1 .. 4 (R130). -/
theorem cause_code_range (k : Cause) : 1 ≤ k.code.toNat ∧ k.code.toNat ≤ 4 := by cases k <;> decide

end Sys2Proof.Machine
end

