-- ==== Sys2Proof/Laws/Memory.lean ====
section
/-! SUPPORT. Laws/Memory.lean: storage words: read after write, the canonical form, and that equal contents in
canonical form are equal lists. -/

namespace Sys2Proof.Machine

@[simp] theorem read_nil (a : Nat) : Memory.read [] a = 0 := rfl

theorem read_cons (k : Nat) (v : Word) (m : Memory) (a : Nat) :
    Memory.read ((k, v) :: m) a = if k = a then v else Memory.read m a := rfl

theorem read_erase_self (m : Memory) (a : Nat) : (Memory.erase m a).read a = 0 := by
  induction m with
  | nil => rfl
  | cons cell rest ih =>
    obtain ⟨k, v⟩ := cell
    by_cases h : k = a
    · simpa [Memory.erase, h] using ih
    · simpa [Memory.erase, h, read_cons] using ih

theorem read_erase_ne {m : Memory} {a a' : Nat} (h : a' ≠ a) : (Memory.erase m a).read a' = m.read a' := by
  induction m with
  | nil => rfl
  | cons cell rest ih =>
    obtain ⟨k, v⟩ := cell
    by_cases hk : k = a
    · have : k ≠ a' := fun e => h (e ▸ hk)
      simpa [Memory.erase, hk, read_cons, this, Ne.symm h] using ih
    · have ih' : Memory.read (List.filter (fun cell => cell.1 != a) rest) a' = Memory.read rest a' := ih
      simp [Memory.erase, hk, read_cons, ih']

theorem read_insert_ne {m : Memory} {a a' : Nat} {v : Word} (h : a' ≠ a) :
    (Memory.insert m a v).read a' = m.read a' := by
  induction m with
  | nil => simp [Memory.insert, read_cons, Ne.symm h]
  | cons cell rest ih =>
    obtain ⟨k, x⟩ := cell
    unfold Memory.insert
    split
    · simp [read_cons, Ne.symm h]
    · simp [read_cons, ih]

/-- A word number that no entry has. -/
theorem read_insert_self {m : Memory} {a : Nat} {v : Word} (h : ∀ cell ∈ m, cell.1 ≠ a) :
    (Memory.insert m a v).read a = v := by
  induction m with
  | nil => simp [Memory.insert, read_cons]
  | cons cell rest ih =>
    obtain ⟨k, x⟩ := cell
    have hk : k ≠ a := h (k, x) (by simp)
    unfold Memory.insert
    split
    · simp [read_cons]
    · simp [read_cons, hk, ih (fun c hc => h c (List.mem_cons_of_mem _ hc))]

/-- A written word reads back, whatever the storage. -/
theorem read_write_self (m : Memory) (a : Nat) (v : Word) : (Memory.write m a v).read a = v := by
  unfold Memory.write
  split
  · simp [read_erase_self, *]
  · refine read_insert_self ?_
    intro cell hc
    have := (List.mem_filter.mp hc).2
    simpa using this

/-- Every other word reads as before. -/
theorem read_write_ne {m : Memory} {a a' : Nat} {v : Word} (h : a' ≠ a) :
    (Memory.write m a v).read a' = m.read a' := by
  unfold Memory.write
  split
  · exact read_erase_ne h
  · rw [read_insert_ne h, read_erase_ne h]

/-! ### The canonical form -/

theorem wf_cons (k : Nat) (v : Word) (m : Memory) :
    Memory.wf ((k, v) :: m) = true ↔ v ≠ 0 ∧ (∀ cell ∈ m, k < cell.1) ∧ Memory.wf m = true := by
  simp [Memory.wf, List.all_eq_true, and_assoc]

theorem wf_erase {m : Memory} (a : Nat) (h : Memory.wf m = true) : Memory.wf (Memory.erase m a) = true := by
  induction m with
  | nil => rfl
  | cons cell rest ih =>
    obtain ⟨k, v⟩ := cell
    obtain ⟨hv, hlt, hrest⟩ := (wf_cons k v rest).mp h
    by_cases hk : k = a
    · simpa [Memory.erase, hk] using ih hrest
    · have : Memory.erase ((k, v) :: rest) a = (k, v) :: Memory.erase rest a := by simp [Memory.erase, hk]
      rw [this, wf_cons]
      exact ⟨hv, fun cell hc => hlt cell (List.mem_filter.mp hc).1, ih hrest⟩

theorem mem_insert {m : Memory} {a : Nat} {v : Word} {cell : Host.Cell} (h : cell ∈ Memory.insert m a v) :
    cell = (a, v) ∨ cell ∈ m := by
  induction m with
  | nil => simpa [Memory.insert] using h
  | cons c rest ih =>
    obtain ⟨k, x⟩ := c
    unfold Memory.insert at h
    split at h
    · simpa using h
    · rcases List.mem_cons.mp h with h | h
      · exact .inr (by simp [h])
      · exact (ih h).imp id (List.mem_cons_of_mem _)

theorem wf_insert {m : Memory} {a : Nat} {v : Word} (hv : v ≠ 0) (ha : ∀ cell ∈ m, cell.1 ≠ a)
    (h : Memory.wf m = true) : Memory.wf (Memory.insert m a v) = true := by
  induction m with
  | nil => simpa [Memory.insert, Memory.wf] using hv
  | cons cell rest ih =>
    obtain ⟨k, x⟩ := cell
    obtain ⟨hx, hlt, hrest⟩ := (wf_cons k x rest).mp h
    unfold Memory.insert
    split
    · next hak =>
      refine (wf_cons ..).mpr ⟨hv, ?_, h⟩
      intro c hc
      rcases List.mem_cons.mp hc with rfl | hc
      · exact hak
      · exact lt_trans hak (hlt c hc)
    · next hak =>
      have hka : k < a := lt_of_le_of_ne (Nat.not_lt.mp hak) (ha (k, x) (by simp))
      refine (wf_cons ..).mpr ⟨hx, ?_, ih (fun c hc => ha c (List.mem_cons_of_mem _ hc)) hrest⟩
      intro c hc
      rcases mem_insert hc with rfl | hc
      · exact hka
      · exact hlt c hc

/-- Every write keeps the canonical form. -/
theorem wf_write {m : Memory} (a : Nat) (v : Word) (h : Memory.wf m = true) :
    Memory.wf (Memory.write m a v) = true := by
  unfold Memory.write
  split
  · exact wf_erase a h
  · next hv =>
    refine wf_insert hv (fun cell hc => ?_) (wf_erase a h)
    simpa using (List.mem_filter.mp hc).2

/-- In canonical form a word below every listed word is 0. -/
theorem read_of_lt {m : Memory} {a : Nat} (h : ∀ cell ∈ m, a < cell.1) : m.read a = 0 := by
  induction m with
  | nil => rfl
  | cons cell rest ih =>
    obtain ⟨k, v⟩ := cell
    have hk : k ≠ a := Nat.ne_of_gt (h (k, v) (by simp))
    simp [read_cons, hk, ih (fun c hc => h c (List.mem_cons_of_mem _ hc))]

/-- Equal contents in canonical form are equal lists. -/
theorem memory_ext {m m' : Memory} (h : Memory.wf m = true) (h' : Memory.wf m' = true)
    (heq : ∀ a, m.read a = m'.read a) : m = m' := by
  induction m generalizing m' with
  | nil =>
    cases m' with
    | nil => rfl
    | cons cell rest =>
      obtain ⟨k, v⟩ := cell
      have := heq k
      simp [read_cons] at this
      exact absurd this.symm ((wf_cons ..).mp h').1
  | cons cell rest ih =>
    obtain ⟨k, v⟩ := cell
    obtain ⟨hv, hlt, hrest⟩ := (wf_cons ..).mp h
    cases m' with
    | nil =>
      have := heq k
      simp [read_cons] at this
      exact absurd this hv
    | cons cell' rest' =>
      obtain ⟨k', v'⟩ := cell'
      obtain ⟨hv', hlt', hrest'⟩ := (wf_cons ..).mp h'
      have hk : k = k' := by
        rcases lt_trichotomy k k' with hkk | hkk | hkk
        · have hz : Memory.read ((k', v') :: rest') k = 0 := read_of_lt (by
            intro c hc
            rcases List.mem_cons.mp hc with rfl | hc
            · exact hkk
            · exact lt_trans hkk (hlt' c hc))
          have := heq k
          rw [hz] at this
          simp [read_cons] at this
          exact absurd this hv
        · exact hkk
        · have hz : Memory.read ((k, v) :: rest) k' = 0 := read_of_lt (by
            intro c hc
            rcases List.mem_cons.mp hc with rfl | hc
            · exact hkk
            · exact lt_trans hkk (hlt c hc))
          have := heq k'
          rw [hz] at this
          simp [read_cons] at this
          exact absurd this.symm hv'
      subst hk
      have hvv : v = v' := by simpa [read_cons] using heq k
      subst hvv
      congr 1
      refine ih hrest hrest' (fun a => ?_)
      by_cases ha : k = a
      · subst ha
        rw [read_of_lt hlt, read_of_lt hlt']
      · simpa [read_cons, ha] using heq a

end Sys2Proof.Machine
end

