-- ==== Sys2Proof/Laws/Bits.lean ====
section
/-! SUPPORT. Laws/Bits.lean: what `bitRead` and `bitWrite` do (20_memory.md R31 to R35), and that contents in
canonical form are determined by their bits. -/

namespace Sys2Proof.Machine

theorem word_bit (w : Word) (n : Nat) : ((w >>> n) &&& 1 == 1) = w.getLsbD n := by
  have h : (w >>> n) &&& 1#8 = BitVec.setWidth 8 (BitVec.ofBool (w.getLsbD n)) := by
    rw [BitVec.and_one_eq_setWidth_ofBool_getLsbD]
    simp
  show ((w >>> n) &&& 1#8 == 1#8) = _
  rw [h]
  cases w.getLsbD n <;> decide

/-- The bit at index `k` is integer bit `7 - k%8` of word `k/8` (R31, R32). -/
theorem bitRead_eq (m : Memory) (k : Nat) : bitRead m k = (m.read (k / 8)).getLsbD (7 - k % 8) :=
  word_bit _ _

/-- Integer bit `i` of a word is the bit at offset `7 - i` (R31, R34). -/
theorem read_getLsbD (m : Memory) (j i : Nat) (hi : i < 8) :
    (m.read j).getLsbD i = bitRead m (8 * j + (7 - i)) := by
  rw [bitRead_eq]
  congr 2 <;> omega

theorem wordUpdate_getLsbD (w : Word) (sh i : Nat) (v : Bool) (hs : sh < 8) (hi : i < 8) :
    ((w &&& ~~~((1 : Word) <<< sh)) ||| (if v then (1 : Word) <<< sh else 0)).getLsbD i =
      if i = sh then v else w.getLsbD i := by
  have h1 : ((1#8 : Word) <<< sh).getLsbD i = decide (i = sh) := by
    have : ∀ sh i : Fin 8, ((1#8 : Word) <<< sh.val).getLsbD i.val = decide (i.val = sh.val) := by decide
    exact this ⟨sh, hs⟩ ⟨i, hi⟩
  have h1' : ((1 : Word) <<< sh).getLsbD i = decide (i = sh) := h1
  rw [BitVec.getLsbD_or, BitVec.getLsbD_and, BitVec.getLsbD_not, h1']
  by_cases h : i = sh
  · subst h
    cases v
    · simp
    · rw [if_pos rfl, h1']
      simp
  · cases v
    · simp [hi, h]
    · rw [if_pos rfl, h1']
      simp [hi, h]

/-- (a) of R35: a written bit reads back. -/
theorem bitRead_bitWrite_self (m : Memory) (k : Nat) (v : Bool) : bitRead (bitWrite m k v) k = v := by
  rw [bitRead_eq]
  show ((Memory.write m (k / 8) _).read (k / 8)).getLsbD (7 - k % 8) = v
  rw [read_write_self]
  have := wordUpdate_getLsbD (m.read (k / 8)) (7 - k % 8) (7 - k % 8) v (by omega) (by omega)
  simpa [bitShift] using this

/-- (b) of R35: every other bit reads as before. -/
theorem bitRead_bitWrite_ne {m : Memory} {k k' : Nat} {v : Bool} (h : k' ≠ k) :
    bitRead (bitWrite m k v) k' = bitRead m k' := by
  rw [bitRead_eq, bitRead_eq]
  show ((Memory.write m (k / 8) _).read (k' / 8)).getLsbD (7 - k' % 8) = _
  by_cases hw : k' / 8 = k / 8
  · rw [hw, read_write_self]
    have := wordUpdate_getLsbD (m.read (k / 8)) (7 - k % 8) (7 - k' % 8) v (by omega) (by omega)
    have hne : 7 - k' % 8 ≠ 7 - k % 8 := by omega
    rw [if_neg hne] at this
    simpa [bitShift] using this
  · rw [read_write_ne hw]

theorem bitRead_bitWrite (m : Memory) (k k' : Nat) (v : Bool) :
    bitRead (bitWrite m k v) k' = if k' = k then v else bitRead m k' := by
  split
  · next h => rw [h, bitRead_bitWrite_self]
  · next h => exact bitRead_bitWrite_ne h

theorem wf_bitWrite {m : Memory} (k : Nat) (v : Bool) (h : Memory.wf m = true) :
    Memory.wf (bitWrite m k v) = true := wf_write _ _ h

@[simp] theorem bitRead_nil (k : Nat) : bitRead [] k = false := by simp [bitRead_eq]

/-- A word is determined by its bits. -/
theorem read_eq_of_bits {m m' : Memory} (heq : ∀ k, bitRead m k = bitRead m' k) (a : Nat) :
    m.read a = m'.read a := by
  apply BitVec.eq_of_getLsbD_eq
  intro i hi
  rw [read_getLsbD m a i hi, read_getLsbD m' a i hi, heq]

/-- Contents in canonical form are determined by their bits. -/
theorem memory_ext_bits {m m' : Memory} (h : Memory.wf m = true) (h' : Memory.wf m' = true)
    (heq : ∀ k, bitRead m k = bitRead m' k) : m = m' :=
  memory_ext h h' (read_eq_of_bits heq)

/-- (c) of R35: writing the bit that is there changes nothing. -/
theorem bitWrite_same {m : Memory} (k : Nat) (h : Memory.wf m = true) :
    bitWrite m k (bitRead m k) = m := by
  refine memory_ext_bits (wf_bitWrite _ _ h) h (fun k' => ?_)
  rw [bitRead_bitWrite]
  split
  · next e => rw [e]
  · rfl

/-- (d), (e) of R75: inverting a bit twice restores the storage. -/
theorem bitFlip_twice {m : Memory} (k : Nat) (h : Memory.wf m = true) :
    bitWrite (bitWrite m k (!bitRead m k)) k (!bitRead (bitWrite m k (!bitRead m k)) k) = m := by
  refine memory_ext_bits (wf_bitWrite _ _ (wf_bitWrite _ _ h)) h (fun k' => ?_)
  rw [bitRead_bitWrite, bitRead_bitWrite_self]
  split
  · next e => rw [e, Bool.not_not]
  · next e => exact bitRead_bitWrite_ne e

/-! ### Blocks -/

theorem blockPos_codeOfBits (c0 c1 c2 c3 c4 c5 c6 c7 : Bool) :
    blockPos (codeOfBits c0 c1 c2 c3 c4 c5 c6 c7) 0 = c0 ∧ blockPos (codeOfBits c0 c1 c2 c3 c4 c5 c6 c7) 1 = c1 ∧
    blockPos (codeOfBits c0 c1 c2 c3 c4 c5 c6 c7) 2 = c2 ∧ blockPos (codeOfBits c0 c1 c2 c3 c4 c5 c6 c7) 3 = c3 ∧
    blockPos (codeOfBits c0 c1 c2 c3 c4 c5 c6 c7) 4 = c4 ∧ blockPos (codeOfBits c0 c1 c2 c3 c4 c5 c6 c7) 5 = c5 ∧
    blockPos (codeOfBits c0 c1 c2 c3 c4 c5 c6 c7) 6 = c6 ∧ blockPos (codeOfBits c0 c1 c2 c3 c4 c5 c6 c7) 7 = c7 := by
  revert c0 c1 c2 c3 c4 c5 c6 c7
  decide

theorem blockPos_dataOfBits (d0 d1 d2 d3 : Bool) :
    blockPos (dataOfBits d0 d1 d2 d3) 0 = d0 ∧ blockPos (dataOfBits d0 d1 d2 d3) 1 = d1 ∧
    blockPos (dataOfBits d0 d1 d2 d3) 2 = d2 ∧ blockPos (dataOfBits d0 d1 d2 d3) 3 = d3 := by
  revert d0 d1 d2 d3
  decide

/-- A block is determined by its positions. -/
theorem block_ext {n : Nat} {c c' : BitVec n} (h : ∀ p, p < n → blockPos c p = blockPos c' p) : c = c' := by
  apply BitVec.eq_of_getLsbD_eq
  intro i hi
  have := h (n - 1 - i) (by omega)
  simp only [blockPos] at this
  rwa [show n - 1 - (n - 1 - i) = i by omega] at this

/-- Position `p` of codeword block `i` is the bit at index `8*i + p` (R37). -/
theorem blockPos_readCode (m : Memory) (i p : Nat) (hp : p < 8) :
    blockPos (readCode m i) p = bitRead m (8 * i + p) := by
  have := blockPos_codeOfBits (bitRead m (8 * i)) (bitRead m (8 * i + 1)) (bitRead m (8 * i + 2))
    (bitRead m (8 * i + 3)) (bitRead m (8 * i + 4)) (bitRead m (8 * i + 5)) (bitRead m (8 * i + 6))
    (bitRead m (8 * i + 7))
  obtain ⟨h0, h1, h2, h3, h4, h5, h6, h7⟩ := this
  unfold readCode
  match p, hp with
  | 0, _ => exact h0
  | 1, _ => exact h1
  | 2, _ => exact h2
  | 3, _ => exact h3
  | 4, _ => exact h4
  | 5, _ => exact h5
  | 6, _ => exact h6
  | 7, _ => exact h7

/-- Position `p` of data block `i` is the bit at index `4*i + p` (R37). -/
theorem blockPos_readData (m : Memory) (i p : Nat) (hp : p < 4) :
    blockPos (readData m i) p = bitRead m (4 * i + p) := by
  obtain ⟨h0, h1, h2, h3⟩ := blockPos_dataOfBits (bitRead m (4 * i)) (bitRead m (4 * i + 1))
    (bitRead m (4 * i + 2)) (bitRead m (4 * i + 3))
  unfold readData
  match p, hp with
  | 0, _ => exact h0
  | 1, _ => exact h1
  | 2, _ => exact h2
  | 3, _ => exact h3

/-- What writing the first `n` positions of a block leaves at every index. -/
theorem bitRead_writePositions {w : Nat} (m : Memory) (base : Nat) (c : BitVec w) (n k : Nat) :
    bitRead (writePositions m base c n) k =
      if base ≤ k ∧ k < base + n then blockPos c (k - base) else bitRead m k := by
  induction n with
  | zero =>
    rw [if_neg (by omega)]
    rfl
  | succ n ih =>
    show bitRead (bitWrite (writePositions m base c n) (base + n) (blockPos c n)) k = _
    rw [bitRead_bitWrite, ih]
    by_cases h : k = base + n
    · subst h
      simp
    · rw [if_neg h]
      by_cases h2 : base ≤ k ∧ k < base + n
      · rw [if_pos h2, if_pos ⟨h2.1, by omega⟩]
      · rw [if_neg h2, if_neg (by omega)]

theorem wf_writePositions {w : Nat} {m : Memory} (base : Nat) (c : BitVec w) (n : Nat)
    (h : Memory.wf m = true) : Memory.wf (writePositions m base c n) = true := by
  induction n with
  | zero => exact h
  | succ n ih => exact wf_bitWrite _ _ ih

end Sys2Proof.Machine
end

