-- ==== Sys2Proof/Laws/Codec.lean ====
section
/-! SUPPORT. Laws/Codec.lean: what the per-block functions do to the positions of a block (41_encoder.md R90, R94;
42_decoder.md R104 to R108). -/

namespace Sys2Proof.Machine

/-- Inverting a position inverts it and no other. -/
theorem blockPos_flipPos (c : CodeBlock) (p q : Nat) (hp : p < 8) (hq : q < 8) :
    blockPos (flipPos c p) q = if q = p then !blockPos c q else blockPos c q := by
  have h1 : (1#8 <<< (7 - p)).getLsbD (7 - q) = decide (q = p) := by
    have : ∀ p q : Fin 8, (1#8 <<< (7 - p.val)).getLsbD (7 - q.val) = decide (q.val = p.val) := by decide
    exact this ⟨p, hp⟩ ⟨q, hq⟩
  show (c ^^^ 1#8 <<< (7 - p)).getLsbD (7 - q) = if q = p then !c.getLsbD (7 - q) else c.getLsbD (7 - q)
  rw [BitVec.getLsbD_xor, h1]
  by_cases h : q = p <;> simp [h]

/-- The position a `CORRECTED` or `PARITY` report names lies in the block. -/
theorem reportPos_lt (k : BlockClass) (s : BitVec 3) : reportPos k s < 8 := by
  cases k with
  | none => exact Nat.zero_lt_succ 7
  | corrected => exact Nat.lt_of_le_of_lt (Nat.sub_le 7 s.toNat) (by decide)
  | double => exact Nat.zero_lt_succ 7
  | parity => exact Nat.lt_succ_self 7

/-- The block after the decoder differs from the block received at the reported position at most, and only in the
classes that change a block (R104, R112). -/
theorem dec84_block_pos (c : CodeBlock) (p : Nat) (hp : p < 8) :
    blockPos (dec84 c).block p =
      if changesBlock (classOf c) = true ∧ p = reportPos (classOf c) (syndrome c)
      then !blockPos c p else blockPos c p := by
  show blockPos (correctBlock c (classOf c) (syndrome c)) p = _
  generalize classOf c = k
  generalize syndrome c = s
  cases k with
  | none => simp [correctBlock, changesBlock]
  | corrected =>
    simp only [correctBlock, changesBlock, true_and, reportPos]
    exact blockPos_flipPos c _ p (by omega) hp
  | double => simp [correctBlock, changesBlock]
  | parity =>
    simp only [correctBlock, changesBlock, reportPos]
    split
    · next h => simpa [h] using blockPos_flipPos c 7 p (by omega) hp
    · next h => simp [h]

/-- Every report entry is one of the sixteen legal ones (30_encoding.md R59). -/
theorem dec84_report_legal (c : CodeBlock) : (dec84 c).report ∈ legalReports := by
  show packReport (classify (mismatch c) (syndrome c)) (reportPos (classify (mismatch c) (syndrome c)) (syndrome c))
    (syndrome c) ∈ legalReports
  generalize mismatch c = m
  generalize syndrome c = s
  revert m s
  decide

/-- (e) of R94: a codeword has syndrome 0 and matching parity. -/
theorem encodeData_clean (d : DataBlock) : syndrome (encodeData d) = 0 ∧ mismatch (encodeData d) = false := by
  revert d
  decide

/-- (b) of R94: the data bits stand at positions 0, 1, 2, 4. -/
theorem extractData_encodeData (d : DataBlock) : extractData (encodeData d) = d := by
  revert d
  decide

end Sys2Proof.Machine
end

