-- ==== Sys2Proof/Laws/Passes.lean ====
section
/-! SUPPORT. Laws/Passes.lean: what the passes of ENCODE (41_encoder.md R95, R97) and DECODE (42_decoder.md R112, R115)
leave, block by block. -/

namespace Sys2Proof.Machine

/-! ### ENCODE -/

theorem bitRead_encodeBlocks (din cw : Memory) (n k : Nat) :
    bitRead (encodeBlocks din n cw) k =
      if k < 8 * n then blockPos (encodeData (readData din (k / 8))) (k % 8) else bitRead cw k := by
  induction n with
  | zero => simp [encodeBlocks]
  | succ n ih =>
    show bitRead (writePositions _ (8 * n) (encodeData (readData din n)) 8) k = _
    rw [bitRead_writePositions, ih]
    by_cases h : 8 * n ≤ k ∧ k < 8 * n + 8
    · have hq : k / 8 = n := by omega
      have hr : k - 8 * n = k % 8 := by omega
      rw [if_pos h, if_pos (by omega), hq, hr]
    · rw [if_neg h]
      by_cases h2 : k < 8 * n
      · rw [if_pos h2, if_pos (by omega)]
      · rw [if_neg h2, if_neg (by omega)]

/-- Codeword block `i` after the pass is `enc84` of data block `i` (R97). -/
theorem readCode_encodeBlocks (din cw : Memory) (n i : Nat) (hi : i < n) :
    readCode (encodeBlocks din n cw) i = encodeData (readData din i) := by
  apply block_ext
  intro p hp
  rw [blockPos_readCode _ _ _ hp, bitRead_encodeBlocks, if_pos (by omega)]
  congr 1
  · congr 2; omega
  · omega

theorem wf_encodeBlocks (din : Memory) {cw : Memory} (n : Nat) (h : Memory.wf cw = true) :
    Memory.wf (encodeBlocks din n cw) = true := by
  induction n with
  | zero => exact h
  | succ n ih => exact wf_writePositions _ _ _ ih

/-- The pass reads the first `4*n` bits of its source and nothing else (10_state.md R24). -/
theorem encodeBlocks_congr {din din' : Memory} (cw : Memory) (n : Nat)
    (h : ∀ k, k < 4 * n → bitRead din k = bitRead din' k) : encodeBlocks din n cw = encodeBlocks din' n cw := by
  induction n with
  | zero => rfl
  | succ n ih =>
    have hd : readData din n = readData din' n := by
      apply block_ext
      intro p hp
      rw [blockPos_readData _ _ _ hp, blockPos_readData _ _ _ hp, h _ (by omega)]
    show writeCode _ n (encodeData (readData din n)) = writeCode _ n (encodeData (readData din' n))
    rw [ih (fun k hk => h k (by omega)), hd]

/-! ### DECODE -/

/-- Writing back leaves block `i` as the decoder says and every other index as it was (R112). -/
theorem bitRead_writeBack (cw : Memory) (i k : Nat) :
    bitRead (writeBack cw i (dec84 (readCode cw i)) (changesBlock (classOf (readCode cw i)))
        (reportPos (classOf (readCode cw i)) (syndrome (readCode cw i)))) k =
      if 8 * i ≤ k ∧ k < 8 * i + 8 then blockPos (dec84 (readCode cw i)).block (k - 8 * i)
      else bitRead cw k := by
  have hlt := reportPos_lt (classOf (readCode cw i)) (syndrome (readCode cw i))
  by_cases hk : 8 * i ≤ k ∧ k < 8 * i + 8
  · rw [if_pos hk]
    have hold : bitRead cw k = blockPos (readCode cw i) (k - 8 * i) := by
      rw [blockPos_readCode _ _ _ (by omega)]
      congr 1; omega
    unfold writeBack
    split
    · next hc =>
      rw [bitRead_bitWrite]
      split
      · next h => congr 1; omega
      · next h => rw [dec84_block_pos _ _ (by omega), if_neg (by omega), hold]
    · next hc => rw [dec84_block_pos _ _ (by omega), if_neg (by simp [hc]), hold]
  · rw [if_neg hk]
    unfold writeBack
    split
    · exact bitRead_bitWrite_ne (by omega)
    · rfl

theorem bitRead_decodeBlocks_cw (p : DecodePass) (n k : Nat) :
    bitRead (decodeBlocks n p).cw k =
      if k < 8 * n then blockPos (dec84 (readCode p.cw (k / 8))).block (k % 8) else bitRead p.cw k := by
  induction n generalizing k with
  | zero => simp [decodeBlocks]
  | succ n ih =>
    have hblock : readCode (decodeBlocks n p).cw n = readCode p.cw n := by
      apply block_ext
      intro q hq
      rw [blockPos_readCode _ _ _ hq, blockPos_readCode _ _ _ hq, ih, if_neg (by omega)]
    show bitRead (writeBack (decodeBlocks n p).cw n _ _ _) k = _
    rw [bitRead_writeBack, hblock, ih]
    by_cases h : 8 * n ≤ k ∧ k < 8 * n + 8
    · have hq : k / 8 = n := by omega
      have hr : k - 8 * n = k % 8 := by omega
      rw [if_pos h, if_pos (by omega), hq, hr]
    · rw [if_neg h]
      by_cases h2 : k < 8 * n
      · rw [if_pos h2, if_pos (by omega)]
      · rw [if_neg h2, if_neg (by omega)]

/-- Block `n` is still as received when the pass reaches it (R113 g, R115). -/
theorem readCode_decodeBlocks_later (p : DecodePass) (n i : Nat) (hi : n ≤ i) :
    readCode (decodeBlocks n p).cw i = readCode p.cw i := by
  apply block_ext
  intro q hq
  rw [blockPos_readCode _ _ _ hq, blockPos_readCode _ _ _ hq, bitRead_decodeBlocks_cw, if_neg (by omega)]

/-- Codeword block `i` after the pass is the corrected block (R115). -/
theorem readCode_decodeBlocks (p : DecodePass) (n i : Nat) (hi : i < n) :
    readCode (decodeBlocks n p).cw i = (dec84 (readCode p.cw i)).block := by
  apply block_ext
  intro q hq
  rw [blockPos_readCode _ _ _ hq, bitRead_decodeBlocks_cw, if_pos (by omega)]
  congr 1
  · congr 3; omega
  · omega

theorem bitRead_decodeBlocks_dout (p : DecodePass) (n k : Nat) :
    bitRead (decodeBlocks n p).dout k =
      if k < 4 * n then blockPos (dec84 (readCode p.cw (k / 4))).data (k % 4) else bitRead p.dout k := by
  induction n with
  | zero => simp [decodeBlocks]
  | succ n ih =>
    show bitRead (writePositions (decodeBlocks n p).dout (4 * n)
      (dec84 (readCode (decodeBlocks n p).cw n)).data 4) k = _
    rw [bitRead_writePositions, readCode_decodeBlocks_later p n n le_rfl, ih]
    by_cases h : 4 * n ≤ k ∧ k < 4 * n + 4
    · have hq : k / 4 = n := by omega
      have hr : k - 4 * n = k % 4 := by omega
      rw [if_pos h, if_pos (by omega), hq, hr]
    · rw [if_neg h]
      by_cases h2 : k < 4 * n
      · rw [if_pos h2, if_pos (by omega)]
      · rw [if_neg h2, if_neg (by omega)]

/-- Data block `i` after the pass is what the decoder extracts from block `i` (R115). -/
theorem readData_decodeBlocks (p : DecodePass) (n i : Nat) (hi : i < n) :
    readData (decodeBlocks n p).dout i = (dec84 (readCode p.cw i)).data := by
  apply block_ext
  intro q hq
  rw [blockPos_readData _ _ _ hq, bitRead_decodeBlocks_dout, if_pos (by omega)]
  congr 1
  · congr 3; omega
  · omega

/-- The log after the pass: one entry per block, in order (10_state.md R15). -/
theorem rpt_decodeBlocks (p : DecodePass) (n : Nat) :
    (decodeBlocks n p).rpt = p.rpt ++ (List.range n).map (fun i => (dec84 (readCode p.cw i)).report) := by
  induction n with
  | zero => simp [decodeBlocks]
  | succ n ih =>
    show (decodeBlocks n p).rpt ++ [(dec84 (readCode (decodeBlocks n p).cw n)).report] = _
    rw [ih, readCode_decodeBlocks_later p n n le_rfl, List.range_succ]
    simp

theorem wf_decodeBlocks {p : DecodePass} (n : Nat) (hc : Memory.wf p.cw = true) (hd : Memory.wf p.dout = true) :
    Memory.wf (decodeBlocks n p).cw = true ∧ Memory.wf (decodeBlocks n p).dout = true := by
  induction n with
  | zero => exact ⟨hc, hd⟩
  | succ n ih =>
    refine ⟨?_, wf_writePositions _ _ _ ih.2⟩
    show Memory.wf (writeBack (decodeBlocks n p).cw n _ _ _) = true
    unfold writeBack
    split
    · exact wf_bitWrite _ _ ih.1
    · exact ih.1

/-- The pass of `DECODE len` as its three results, block by block (R115). -/
theorem decodePass_report (c : CoreState) (len : Arg) (i : Nat) (hi : i < len.toNat / 8) :
    (decodePass c len).rpt.getD i 0 = (dec84 (readCode c.cw.words i)).report := by
  show ((decodeBlocks (len.toNat / 8) { cw := c.cw.words, dout := [], rpt := [] }).rpt).getD i 0 = _
  rw [rpt_decodeBlocks]
  simp [List.getD_eq_getElem?_getD, hi]

end Sys2Proof.Machine
end

