-- ==== Sys2Proof/Laws/Outcome.lean ====
section
/-! SUPPORT. Laws/Outcome.lean: the one inversion lemma of the machine: every command answers, and what it answers is
either the fault action of 60_exceptions.md R133 or its own effect on the core. -/

namespace Sys2Proof.Machine

/-- What a performed command does to the core, at `NBLK_MAX = nblk`, with the condition under which it is performed
(40_buffer_ops.md R70 to R74, 41_encoder.md R93, R95, 42_decoder.md R110, R112, 43_control_ops.md R120, R121). -/
def Performed (nblk : Nat) (i : Instr) (c c' : CoreState) : Prop :=
  match i with
  | .alloc b n => n.toNat ≤ capacity nblk b ∧ c' = c.setBuf b { words := [], len := n }
  | .get b k => k.toNat < (c.buf b).len.toNat ∧ c' = c
  | .set b k v => k.toNat < (c.buf b).len.toNat ∧
      c' = c.setBuf b { c.buf b with words := bitWrite (c.buf b).words k.toNat v }
  | .flip b k => k.toNat < (c.buf b).len.toNat ∧
      c' = c.setBuf b { c.buf b with words := bitWrite (c.buf b).words k.toNat (!bitRead (c.buf b).words k.toNat) }
  | .rdword b j => j.toNat * 8 < (c.buf b).len.toNat ∧ c' = c
  | .encode len => len.toNat % 4 = 0 ∧ len.toNat ≤ c.din.len.toNat ∧
      c' = c.setBuf .cw { words := encodeBlocks c.din.words (len.toNat / 4) [],
                          len := BitVec.ofNat 16 (2 * len.toNat) }
  | .decode len => len.toNat % 8 = 0 ∧ len.toNat ≤ c.cw.len.toNat ∧ c' = decodedCore c len (decodePass c len)
  | .encb _ => c' = c
  | .decb _ => c' = c
  | .rdrpt k => k.toNat < c.nrpt.toNat ∧ c' = c
  | .rdreg r => r.toNat ≤ 4 ∧ c' = c

/-- The state after a command that is performed, with the core it leaves. -/
def afterPerformed (c' : CoreState) (data : BitVec 16) (rpt : ReportEntry) (s : State) : State :=
  { core := c'
    pending := s.pending
    responses := s.responses ++ [{ err := false, cause := 0, rpt := rpt, data := data }] }

/-- Where the report entry of a response comes from: no entry, a block decoded now, or the log (R66). -/
def ReportSource (c : CoreState) (rpt : ReportEntry) : Prop :=
  rpt = 0 ∨ (∃ x, rpt = (dec84 x).report) ∨ ∃ k, k < c.nrpt.toNat ∧ rpt = c.report k

/-- What `execAt nblk i s` answers: the fault action, or the effect of the command. -/
def Answers (nblk : Nat) (i : Instr) (s t : State) : Prop :=
  (∃ k : Cause, t = afterViolation k.code s) ∨
  ∃ c' data rpt, Performed nblk i s.core c' ∧ ReportSource s.core rpt ∧ t = afterPerformed c' data rpt s

theorem answers_violation (nblk : Nat) (i : Instr) (s : State) (k : Cause) :
    ∃ t, raiseCV k s = .next t ∧ Answers nblk i s t := ⟨_, rfl, .inl ⟨k, rfl⟩⟩

theorem answers_performed {nblk : Nat} {i : Instr} {s u : State} (data : BitVec 16) {rpt : ReportEntry}
    (hp : Performed nblk i s.core u.core) (hr : ReportSource s.core rpt) (hq : u.pending = s.pending)
    (ha : u.responses = s.responses) : ∃ t, respond data rpt u = .next t ∧ Answers nblk i s t := by
  refine ⟨_, rfl, .inr ⟨u.core, data, rpt, hp, hr, ?_⟩⟩
  simp [afterPerformed, State.answer, okResponse, hq, ha]

/-- A register number up to 4 names a register, and no other does (10_state.md R18). -/
theorem register_eq (c : CoreState) (r : Arg) :
    c.register r =
      if r.toNat = 0 then some c.din.len else if r.toNat = 1 then some c.cw.len
      else if r.toNat = 2 then some c.dout.len else if r.toNat = 3 then some c.nrpt
      else if r.toNat = 4 then some c.fault.read else none := by
  unfold CoreState.register
  split <;> simp_all

/-- Every command answers a next state (70_reset_and_hazards.md R155), and this is what it answers. -/
theorem execAt_answers (nblk : Nat) (i : Instr) (s : State) :
    ∃ t, execAt nblk i s = .next t ∧ Answers nblk i s t := by
  cases i with
  | alloc b n =>
    show ∃ t, execAllocAt nblk b n s = .next t ∧ _
    unfold execAllocAt
    split
    · exact answers_violation ..
    · exact answers_performed 0 ⟨by omega, rfl⟩ (.inl rfl) rfl rfl
  | get b k =>
    show ∃ t, execGet b k s = .next t ∧ _
    unfold execGet
    split
    · exact answers_performed _ ⟨by assumption, rfl⟩ (.inl rfl) rfl rfl
    · exact answers_violation ..
  | set b k v =>
    show ∃ t, execSet b k v s = .next t ∧ _
    unfold execSet
    split
    · exact answers_performed _ ⟨by assumption, rfl⟩ (.inl rfl) rfl rfl
    · exact answers_violation ..
  | flip b k =>
    show ∃ t, execFlip b k s = .next t ∧ _
    unfold execFlip
    split
    · exact answers_performed _ ⟨by assumption, rfl⟩ (.inl rfl) rfl rfl
    · exact answers_violation ..
  | rdword b j =>
    show ∃ t, execRdword b j s = .next t ∧ _
    unfold execRdword
    split
    · exact answers_performed _ ⟨by assumption, rfl⟩ (.inl rfl) rfl rfl
    · exact answers_violation ..
  | encode len =>
    show ∃ t, execEncode len s = .next t ∧ _
    unfold execEncode
    split
    · exact answers_violation ..
    · split
      · exact answers_violation ..
      · exact answers_performed _ ⟨by omega, by omega, rfl⟩ (.inl rfl) rfl rfl
  | decode len =>
    show ∃ t, execDecode len s = .next t ∧ _
    unfold execDecode
    split
    · exact answers_violation ..
    · split
      · exact answers_violation ..
      · exact answers_performed _ ⟨by omega, by omega, rfl⟩ (.inl rfl) rfl rfl
  | encb d => exact answers_performed _ rfl (.inl rfl) rfl rfl
  | decb c => exact answers_performed _ rfl (.inr (.inl ⟨c, rfl⟩)) rfl rfl
  | rdrpt k =>
    show ∃ t, execRdrpt k s = .next t ∧ _
    unfold execRdrpt
    split
    · next h => exact answers_performed _ ⟨h, rfl⟩ (.inr (.inr ⟨_, h, rfl⟩)) rfl rfl
    · exact answers_violation ..
  | rdreg r =>
    show ∃ t, execRdreg r s = .next t ∧ _
    unfold execRdreg
    split
    · next h =>
      refine answers_performed _ ⟨?_, rfl⟩ (.inl rfl) rfl rfl
      rw [register_eq] at h
      by_contra hlt
      rw [if_neg (by omega), if_neg (by omega), if_neg (by omega), if_neg (by omega), if_neg (by omega)] at h
      cases h
    · exact answers_violation ..

/-- The machine's capacity is a legal one (00_scope.md R5). -/
theorem nblkMax_legal : Config.NblkLegal nblkMax := by decide

/-- `exec` is `execAt` at this instance's capacity. -/
theorem execAt_nblkMax (i : Instr) (s : State) : execAt nblkMax i s = exec i s := by cases i <;> rfl

/-- `step` is `stepAt` at this instance's capacity. -/
theorem stepAt_nblkMax (s : State) : stepAt nblkMax s = step s := by
  have h : execAt nblkMax = exec := by
    funext i s
    exact execAt_nblkMax i s
  unfold stepAt step
  rw [h]

/-- Every command of the machine answers a next state, and this is what it answers. -/
theorem exec_answers (i : Instr) (s : State) : ∃ t, exec i s = .next t ∧ Answers nblkMax i s t := by
  rw [← execAt_nblkMax]
  exact execAt_answers nblkMax i s

theorem next_inj {s t : State} (h : (Host.Outcome.next s : Outcome) = .next t) : s = t := by
  cases h
  rfl

/-- The inversion of a next state of `execAt`. -/
theorem answers_of_execAt {nblk : Nat} {i : Instr} {s t : State} (h : execAt nblk i s = .next t) :
    Answers nblk i s t := by
  obtain ⟨u, hu, ha⟩ := execAt_answers nblk i s
  rw [hu] at h
  exact next_inj h ▸ ha

/-- The inversion of a next state of `exec`. -/
theorem answers_of_exec {i : Instr} {s t : State} (h : exec i s = .next t) : Answers nblkMax i s t := by
  rw [← execAt_nblkMax] at h
  exact answers_of_execAt h

/-! ### The port

What a command does to the core and what it answers depend on the core alone (10_state.md R22, R23). -/

/-- An outcome with another port put around it. -/
def onPort (p : List HostRequest) (rs : List Response) (o : Outcome) : Outcome :=
  match o with
  | .next t => .next { core := t.core, pending := p, responses := rs ++ t.responses }
  | .fault r => .fault r
  | .refused r => .refused r

theorem execAt_onPort (nblk : Nat) (i : Instr) (c : CoreState) (p : List HostRequest) (rs : List Response) :
    execAt nblk i ⟨c, p, rs⟩ = onPort p rs (execAt nblk i ⟨c, [], []⟩) := by
  have key : ∀ {q : Prop} [Decidable q] {a b a' b' : Outcome}, a = onPort p rs a' → b = onPort p rs b' →
      (if q then a else b) = onPort p rs (if q then a' else b') := by
    intro q _ a b a' b' h h'
    split <;> assumption
  cases i with
  | alloc b n => exact key rfl rfl
  | get b k => exact key rfl rfl
  | set b k v => exact key rfl rfl
  | flip b k => exact key rfl rfl
  | rdword b j => exact key rfl rfl
  | encode len => exact key rfl (key rfl rfl)
  | decode len => exact key rfl (key rfl rfl)
  | encb d => rfl
  | decb d => rfl
  | rdrpt k => exact key rfl rfl
  | rdreg r =>
    show execRdreg _ _ = onPort p rs (execRdreg _ _)
    unfold execRdreg
    dsimp only
    cases c.register r <;> rfl

/-- For every core and command there is one core it leaves and one response it gives, whatever stands at the port. -/
theorem execAt_core (nblk : Nat) (i : Instr) (c : CoreState) :
    ∃ c' r, ∀ p rs, execAt nblk i ⟨c, p, rs⟩ = .next ⟨c', p, rs ++ [r]⟩ := by
  obtain ⟨t, ht, ha⟩ := execAt_answers nblk i ⟨c, [], []⟩
  have hr : ∃ r, t.responses = [r] := by
    rcases ha with ⟨k, rfl⟩ | ⟨c', d, r, _, _, rfl⟩ <;> exact ⟨_, rfl⟩
  obtain ⟨r, hr⟩ := hr
  refine ⟨t.core, r, fun p rs => ?_⟩
  rw [execAt_onPort, ht, ← hr]
  rfl

/-! ### One step -/

theorem takeRequest_idle (f : CmdWord → State → Outcome) {s : State} (h : s.pending = []) :
    takeRequest f s = .next s := by
  unfold takeRequest
  rw [h]
  rfl

theorem takeRequest_reset (f : CmdWord → State → Outcome) {s : State} {rest : List HostRequest}
    (h : s.pending = .reset :: rest) :
    takeRequest f s = .next { core := CoreState.reset, pending := rest, responses := s.responses } := by
  unfold takeRequest
  rw [h]
  rfl

theorem takeRequest_command (f : CmdWord → State → Outcome) {s : State} {w : CmdWord} {rest : List HostRequest}
    (h : s.pending = .command w :: rest) : takeRequest f s = f w { s with pending := rest } := by
  unfold takeRequest
  rw [h]

theorem runCommand_ok (ex : Instr → State → Outcome) {w : CmdWord} {i : Instr} (s : State)
    (h : decode w = .ok i) : runCommand ex w s = ex i s := by
  unfold runCommand
  rw [h]

theorem runCommand_rejected (ex : Instr → State → Outcome) {w : CmdWord} {e : Reject} (s : State)
    (h : decode w = .error e) : runCommand ex w s = .next (afterViolation 4 s) := by
  unfold runCommand
  rw [h]
  rfl

/-- A run whose first step answers goes on from there. -/
theorem run_next {M : Host.Core} {n : Nat} {s u : M.State} (h : M.step s = .next u) :
    M.run (n + 1) s = M.run n u := by
  rw [Host.Core.run.eq_2, h]

/-- The same of this machine, in its own state type. -/
theorem core_run_next {n : Nat} {s u : State} (h : step s = .next u) :
    Host.Core.run Sys2Proof.core (n + 1) s = Host.Core.run Sys2Proof.core n u :=
  run_next (M := Sys2Proof.core) h

end Sys2Proof.Machine
end

