-- ==== Sys2Proof/Laws/Commands.lean ====
section
/-! SUPPORT. Laws/Commands.lean: what each command that checks an operand answers, one equation for each side of its
check, and what a pass of DECODE over clean blocks leaves. -/

namespace Sys2Proof.Machine

variable {b : Buf} {k j len : Arg} {v : Bool} {s : State}

theorem exec_get_performed (h : k.toNat < (s.core.buf b).len.toNat) :
    exec (.get b k) s = .next (afterRead (BitVec.ofNat 16 (bitRead (s.core.buf b).words k.toNat).toNat) 0 s) := by
  show execGet b k s = _
  unfold execGet
  rw [if_pos h, respond_eq]
  congr 2
  cases bitRead (s.core.buf b).words k.toNat <;> rfl

theorem exec_get_violation (h : (s.core.buf b).len.toNat ≤ k.toNat) :
    exec (.get b k) s = .next (afterViolation 2 s) := by
  show execGet b k s = _
  unfold execGet
  rw [if_neg (by omega)]
  rfl

theorem exec_set_performed (h : k.toNat < (s.core.buf b).len.toNat) :
    exec (.set b k v) s = .next ((s.setBuf b
      { s.core.buf b with words := bitWrite (s.core.buf b).words k.toNat v }).answer (okResponse 0 0)) := by
  show execSet b k v s = _
  unfold execSet
  rw [if_pos h]
  rfl

theorem exec_set_violation (h : (s.core.buf b).len.toNat ≤ k.toNat) :
    exec (.set b k v) s = .next (afterViolation 2 s) := by
  show execSet b k v s = _
  unfold execSet
  rw [if_neg (by omega)]
  rfl

theorem exec_flip_performed (h : k.toNat < (s.core.buf b).len.toNat) :
    exec (.flip b k) s = .next ((s.setBuf b { s.core.buf b with
      words := bitWrite (s.core.buf b).words k.toNat (!bitRead (s.core.buf b).words k.toNat) }).answer
        (okResponse 0 0)) := by
  show execFlip b k s = _
  unfold execFlip
  rw [if_pos h]
  rfl

theorem exec_flip_violation (h : (s.core.buf b).len.toNat ≤ k.toNat) :
    exec (.flip b k) s = .next (afterViolation 2 s) := by
  show execFlip b k s = _
  unfold execFlip
  rw [if_neg (by omega)]
  rfl

theorem exec_rdword_performed (h : j.toNat * 8 < (s.core.buf b).len.toNat) :
    exec (.rdword b j) s = .next (afterRead (((s.core.buf b).words.read j.toNat).setWidth 16) 0 s) := by
  show execRdword b j s = _
  unfold execRdword
  rw [if_pos h]
  rfl

theorem exec_rdword_violation (h : (s.core.buf b).len.toNat ≤ j.toNat * 8) :
    exec (.rdword b j) s = .next (afterViolation 2 s) := by
  show execRdword b j s = _
  unfold execRdword
  rw [if_neg (Nat.not_lt.mpr h)]
  rfl

theorem exec_encode_performed (h4 : len.toNat % 4 = 0) (hl : len.toNat ≤ s.core.din.len.toNat) :
    exec (.encode len) s = .next ((s.setBuf .cw
      { words := encodeBlocks s.core.din.words (len.toNat / 4) [], len := BitVec.ofNat 16 (2 * len.toNat) }).answer
        (okResponse (BitVec.ofNat 16 (2 * len.toNat)) 0)) := by
  show execEncode len s = _
  unfold execEncode
  rw [if_neg (by omega), if_neg (by omega)]
  rfl

theorem exec_decode_performed (h8 : len.toNat % 8 = 0) (hl : len.toNat ≤ s.core.cw.len.toNat) :
    exec (.decode len) s = .next (({ s with core := decodedCore s.core len (decodePass s.core len) } : State).answer
      (okResponse (BitVec.ofNat 16 (len.toNat / 8)) 0)) := by
  show execDecode len s = _
  unfold execDecode
  rw [if_neg (by omega), if_neg (by omega)]
  rfl

theorem exec_rdrpt_performed (h : k.toNat < s.core.nrpt.toNat) :
    exec (.rdrpt k) s = .next (afterRead 0 (s.core.report k.toNat) s) := by
  show execRdrpt k s = _
  unfold execRdrpt
  rw [if_pos h]
  rfl

theorem exec_rdrpt_violation (h : s.core.nrpt.toNat ≤ k.toNat) :
    exec (.rdrpt k) s = .next (afterViolation 2 s) := by
  show execRdrpt k s = _
  unfold execRdrpt
  rw [if_neg (by omega)]
  rfl

/-- A pass over blocks that the decoder leaves alone writes nothing back. -/
theorem decodeBlocks_cw_unchanged {p : DecodePass} (n : Nat)
    (h : ∀ i, i < n → changesBlock (classOf (readCode p.cw i)) = false) : (decodeBlocks n p).cw = p.cw := by
  induction n with
  | zero => rfl
  | succ n ih =>
    show writeBack (decodeBlocks n p).cw n _ _ _ = _
    rw [readCode_decodeBlocks_later _ _ _ le_rfl]
    unfold writeBack
    rw [h n (by omega), if_neg (by simp)]
    exact ih (fun i hi => h i (by omega))

/-- Data block by data block, what a pass writes to `DOUT` depends only on the data of the blocks it reads. -/
theorem decodeBlocks_dout_congr {m m' : Memory} (n : Nat)
    (h : ∀ i, i < n → (dec84 (readCode m i)).data = (dec84 (readCode m' i)).data) :
    (decodeBlocks n ⟨m, [], []⟩).dout = (decodeBlocks n ⟨m', [], []⟩).dout := by
  induction n with
  | zero => rfl
  | succ n ih =>
    show writePositions (decodeBlocks n _).dout (4 * n) (dec84 (readCode (decodeBlocks n _).cw n)).data 4 =
      writePositions (decodeBlocks n _).dout (4 * n) (dec84 (readCode (decodeBlocks n _).cw n)).data 4
    rw [ih (fun i hi => h i (by omega)), readCode_decodeBlocks_later _ _ _ le_rfl,
      readCode_decodeBlocks_later _ _ _ le_rfl, h n (by omega)]

end Sys2Proof.Machine
end

