-- ==== Sys2Proof/Laws/Encoding.lean ====
section
/-! SUPPORT. Laws/Encoding.lean: the fields of a packed command word (30_encoding.md R60), and a word as the integer its
fields make. -/

namespace Sys2Proof

variable (op : BitVec 4) (b : BitVec 2) (v : Bool) (arg : Arg)

theorem ofBool_toNat (v : Bool) : (BitVec.ofBool v).toNat = v.toNat := by cases v <;> rfl

/-- The packed word as an integer: `OP * 2^28 + BUF * 2^26 + VAL * 2^16 + ARG` (R60). -/
theorem packCommand_toNat :
    (packCommand op b v arg).toNat = op.toNat * 2 ^ 28 + b.toNat * 2 ^ 26 + v.toNat * 2 ^ 16 + arg.toNat := by
  have hv : v.toNat ≤ 1 := Bool.toNat_le v
  have ha := arg.isLt
  have hb := b.isLt
  unfold packCommand
  simp only [BitVec.toNat_append, ofBool_toNat, BitVec.toNat_ofNat]
  have hz : (0 : Nat) % 2 ^ 9 < 2 ^ 9 := by decide
  have hv' : v.toNat < 2 ^ 1 := by omega
  rw [← Nat.shiftLeft_add_eq_or_of_lt hb, ← Nat.shiftLeft_add_eq_or_of_lt hz,
    ← Nat.shiftLeft_add_eq_or_of_lt hv', ← Nat.shiftLeft_add_eq_or_of_lt ha]
  simp only [Nat.shiftLeft_eq]
  omega

theorem opField_toNat (w : CmdWord) : (opField w).toNat = w.toNat / 2 ^ 28 := by
  have := w.isLt
  simp only [opField, BitVec.extractLsb'_toNat, Nat.shiftRight_eq_div_pow]
  omega

theorem bufField_toNat (w : CmdWord) : (bufField w).toNat = w.toNat / 2 ^ 26 % 4 := by
  simp [bufField, BitVec.extractLsb'_toNat, Nat.shiftRight_eq_div_pow]

theorem zeroField_toNat (w : CmdWord) : (zeroField w).toNat = w.toNat / 2 ^ 17 % 512 := by
  simp [zeroField, BitVec.extractLsb'_toNat, Nat.shiftRight_eq_div_pow]

theorem valField_toNat (w : CmdWord) : (valField w).toNat = w.toNat / 2 ^ 16 % 2 := by
  simp [valField, BitVec.extractLsb'_toNat, Nat.shiftRight_eq_div_pow]

theorem argField_toNat (w : CmdWord) : (argField w).toNat = w.toNat % 2 ^ 16 := by
  simp [argField, BitVec.extractLsb'_toNat]

theorem opField_pack : opField (packCommand op b v arg) = op := by
  have hv : v.toNat ≤ 1 := Bool.toNat_le v
  have := arg.isLt
  have := b.isLt
  apply BitVec.eq_of_toNat_eq
  rw [opField_toNat, packCommand_toNat]
  omega

theorem bufField_pack : bufField (packCommand op b v arg) = b := by
  have hv : v.toNat ≤ 1 := Bool.toNat_le v
  have := arg.isLt
  have := b.isLt
  apply BitVec.eq_of_toNat_eq
  rw [bufField_toNat, packCommand_toNat]
  omega

theorem zeroField_pack : zeroField (packCommand op b v arg) = 0 := by
  have hv : v.toNat ≤ 1 := Bool.toNat_le v
  have := arg.isLt
  have := b.isLt
  apply BitVec.eq_of_toNat_eq
  rw [zeroField_toNat, packCommand_toNat]
  show _ = 0
  omega

theorem valField_pack : valField (packCommand op b v arg) = BitVec.ofBool v := by
  have hv : v.toNat ≤ 1 := Bool.toNat_le v
  have := arg.isLt
  have := b.isLt
  apply BitVec.eq_of_toNat_eq
  rw [valField_toNat, packCommand_toNat, ofBool_toNat]
  omega

theorem argField_pack : argField (packCommand op b v arg) = arg := by
  have hv : v.toNat ≤ 1 := Bool.toNat_le v
  have := arg.isLt
  have := b.isLt
  apply BitVec.eq_of_toNat_eq
  rw [argField_toNat, packCommand_toNat]
  omega

/-- A word is the packing of its fields when its `ZERO` field is 0 (R60). -/
theorem pack_fields (w : CmdWord) (hz : zeroField w = 0) (v : Bool) (hv : valField w = BitVec.ofBool v) :
    packCommand (opField w) (bufField w) v (argField w) = w := by
  have h1 : (zeroField w).toNat = 0 := by rw [hz]; rfl
  have h2 : (valField w).toNat = v.toNat := by rw [hv, ofBool_toNat]
  rw [zeroField_toNat] at h1
  rw [valField_toNat] at h2
  apply BitVec.eq_of_toNat_eq
  rw [packCommand_toNat, opField_toNat, bufField_toNat, argField_toNat]
  omega

/-- Decoding a packed word decodes its fields (R63). -/
theorem decode_pack : decode (packCommand op b v arg) = decodeFields op b 0 (BitVec.ofBool v) arg := by
  unfold decode
  rw [opField_pack, bufField_pack, zeroField_pack, valField_pack, argField_pack]

end Sys2Proof
end

