-- ==== Sys2Proof/Laws/PerInstr.lean ====
section
/-! SUPPORT. Laws/PerInstr.lean: the family TableRow: the word of every well-formed command lies in the row of
spec/opcode_table.json that has its mnemonic. -/

namespace Sys2Proof.Laws

/-- A packed word under a mask, field by field. -/
theorem pack_and (op m1 : BitVec 4) (b m2 : BitVec 2) (m3 : BitVec 9) (v : Bool) (m4 : BitVec 1) (arg m5 : Arg) :
    packCommand op b v arg &&& (m1 ++ m2 ++ m3 ++ m4 ++ m5) =
      (op &&& m1) ++ (b &&& m2) ++ (0#9 &&& m3) ++ (BitVec.ofBool v &&& m4) ++ (arg &&& m5) := by
  have h : (op ++ b ++ 0#9 ++ BitVec.ofBool v ++ arg : BitVec (4 + 2 + 9 + 1 + 16)) &&& (m1 ++ m2 ++ m3 ++ m4 ++ m5) =
      (op &&& m1) ++ (b &&& m2) ++ (0#9 &&& m3) ++ (BitVec.ofBool v &&& m4) ++ (arg &&& m5) := by
    simp only [BitVec.and_append]
  exact h

/-- A command that names a buffer and has no `VAL`. -/
theorem buffer_row (op : BitVec 4) (b : BitVec 2) (arg : Arg) :
    packCommand op b false arg &&& 0xF3FF0000 = op ++ 0#28 := by
  have hm : (0xF3FF0000 : CmdWord) = 15#4 ++ 0#2 ++ 511#9 ++ 1#1 ++ 0#16 := by decide
  rw [hm, pack_and]
  simp only [BitVec.and_zero]
  revert op
  decide

/-- `SET`, which has a `VAL`. -/
theorem set_row (op : BitVec 4) (b : BitVec 2) (v : Bool) (arg : Arg) :
    packCommand op b v arg &&& 0xF3FE0000 = op ++ 0#28 := by
  have hm : (0xF3FE0000 : CmdWord) = 15#4 ++ 0#2 ++ 511#9 ++ 0#1 ++ 0#16 := by decide
  rw [hm, pack_and]
  simp only [BitVec.and_zero]
  revert op
  decide

/-- A command whose only operand is a whole `ARG`. -/
theorem plain_row (op : BitVec 4) (arg : Arg) : packCommand op 0 false arg &&& 0xFFFF0000 = op ++ 0#28 := by
  have hm : (0xFFFF0000 : CmdWord) = 15#4 ++ 3#2 ++ 511#9 ++ 1#1 ++ 0#16 := by decide
  rw [hm, pack_and]
  simp only [BitVec.and_zero]
  revert op
  decide

/-- The word of the command lies in its row of the opcode table (30_encoding.md R61). -/
def TableRow.Statement (i : Instr) : Prop :=
  i.wf = true → ∃ row ∈ opcodeTable, row.mnemonic = mnemonicOf i ∧ row.has (encode i) = true

theorem TableRow.alloc (b : Buf) (n : Arg) : TableRow.Statement (.alloc b n) := fun _ =>
  ⟨⟨"ALLOC", 0x10000000, 0xF3FF0000⟩, by simp [opcodeTable], rfl, by
    simpa [OpcodeRow.has, encode] using buffer_row 1 (bufNumber b) n⟩

theorem TableRow.get (b : Buf) (k : Arg) : TableRow.Statement (.get b k) := fun _ =>
  ⟨⟨"GET", 0x20000000, 0xF3FF0000⟩, by simp [opcodeTable], rfl, by
    simpa [OpcodeRow.has, encode] using buffer_row 2 (bufNumber b) k⟩

theorem TableRow.set (b : Buf) (k : Arg) (v : Bool) : TableRow.Statement (.set b k v) := fun _ =>
  ⟨⟨"SET", 0x30000000, 0xF3FE0000⟩, by simp [opcodeTable], rfl, by
    simpa [OpcodeRow.has, encode] using set_row 3 (bufNumber b) v k⟩

theorem TableRow.flip (b : Buf) (k : Arg) : TableRow.Statement (.flip b k) := fun _ =>
  ⟨⟨"FLIP", 0x40000000, 0xF3FF0000⟩, by simp [opcodeTable], rfl, by
    simpa [OpcodeRow.has, encode] using buffer_row 4 (bufNumber b) k⟩

theorem TableRow.rdword (b : Buf) (j : Arg) : TableRow.Statement (.rdword b j) := fun _ =>
  ⟨⟨"RDWORD", 0x50000000, 0xF3FF0000⟩, by simp [opcodeTable], rfl, by
    simpa [OpcodeRow.has, encode] using buffer_row 5 (bufNumber b) j⟩

theorem TableRow.encode (len : Arg) : TableRow.Statement (.encode len) := fun _ =>
  ⟨⟨"ENCODE", 0x60000000, 0xFFFF0000⟩, by simp [opcodeTable], rfl, by
    simpa [OpcodeRow.has, Sys2Proof.encode] using plain_row 6 len⟩

theorem TableRow.decode (len : Arg) : TableRow.Statement (.decode len) := fun _ =>
  ⟨⟨"DECODE", 0x70000000, 0xFFFF0000⟩, by simp [opcodeTable], rfl, by
    simpa [OpcodeRow.has, Sys2Proof.encode] using plain_row 7 len⟩

theorem TableRow.encb (d : DataBlock) : TableRow.Statement (.encb d) := fun _ =>
  ⟨⟨"ENCB", 0x80000000, 0xFFFFFFF0⟩, by simp [opcodeTable], rfl, by revert d; decide⟩

theorem TableRow.decb (c : CodeBlock) : TableRow.Statement (.decb c) := fun _ =>
  ⟨⟨"DECB", 0x90000000, 0xFFFFFF00⟩, by simp [opcodeTable], rfl, by revert c; decide⟩

theorem TableRow.rdrpt (i : Arg) : TableRow.Statement (.rdrpt i) := fun _ =>
  ⟨⟨"RDRPT", 0xA0000000, 0xFFFF0000⟩, by simp [opcodeTable], rfl, by
    simpa [OpcodeRow.has, Sys2Proof.encode] using plain_row 10 i⟩

theorem TableRow.rdreg (r : Arg) : TableRow.Statement (.rdreg r) := fun _ =>
  ⟨⟨"RDREG", 0xB0000000, 0xFFFF0000⟩, by simp [opcodeTable], rfl, by
    simpa [OpcodeRow.has, Sys2Proof.encode] using plain_row 11 r⟩

end Sys2Proof.Laws
end

