-- ==== Sys2Proof/Tests/Slice0.lean ====
section
/-! SUPPORT. Tests/Slice0.lean: checks of our own work. Expected values are the spec's: the vectors of 95_test_vectors.md
(B, F, X and the programs P1, P2) and the examples of R70 to R121. Then, for every obligation with hypotheses, a
witness that meets them. -/

namespace Sys2Proof.Tests

open Sys2Proof Sys2Proof.Machine

/-! ### Small states -/

/-- A state with the given buffers and report log, and no fault, idle. -/
def board (din cw dout : Buffer) (rpt : List ReportEntry) : State :=
  { State.reset with core :=
      { din := din, cw := cw, dout := dout, rpt := rpt, nrpt := BitVec.ofNat 16 rpt.length,
        fault := { v := false, cause := 0 } } }

/-- `DIN` = `1101 0110`, `CW` = `11101100 01100110` (`0xEC`, `0x66`), `DOUT` = `1101`, one report `0x55`. -/
def desk : State :=
  board { words := [(0, 0xD6)], len := 8 } { words := [(0, 0xEC), (1, 0x66)], len := 16 }
    { words := [(0, 0xD0)], len := 4 } [0x55]

/-- The state a step answers; the given one where it answers none. -/
def after (o : Outcome) (s : State) : State :=
  match o with
  | .next t => t
  | .fault _ => s
  | .refused _ => s

/-- The packed word of the last response of the state a step answers. -/
def rsp (o : Outcome) : Option (BitVec 32) := (after o State.reset).responses.getLast?.map Response.pack

/-- The core a step answers. -/
def coreAfter (o : Outcome) : CoreState := (after o State.reset).core

/-- The name of the test of R63 that a word fails. -/
def rejectOf (w : CmdWord) : Option Reject :=
  match decode w with
  | .ok _ => none
  | .error e => some e

/-! ### Well-formedness -/

theorem test_wf_refuses_register_5 : (Instr.rdreg 5).wf = false := by decide
theorem test_wf_refuses_register_65535 : (Instr.rdreg 0xFFFF).wf = false := by decide
theorem test_wf_accepts_register_4 : (Instr.rdreg 4).wf = true := by decide

/-! ### Decoding: one word of each command, field by field (R60, R61), and each rejection (X1 to X13) -/

/-- `{OP, BUF, ZERO, VAL, ARG}` (R60). -/
def word (op : BitVec 4) (buf : BitVec 2) (zero : BitVec 9) (val : BitVec 1) (arg : BitVec 16) : BitVec 32 :=
  op ++ buf ++ zero ++ val ++ arg

theorem test_decode_alloc : decode (word 0b0001 0b01 0 0 0b0000000000100000) = .ok (.alloc .cw 32) := by rfl
theorem test_decode_get : decode (word 0b0010 0b10 0 0 0b1000000000000001) = .ok (.get .dout 0x8001) := by rfl
theorem test_decode_set : decode (word 0b0011 0b00 0 1 0b0000000000000011) = .ok (.set .din 3 true) := by rfl
theorem test_decode_set_zero : decode (word 0b0011 0b10 0 0 0b0000000000000010) = .ok (.set .dout 2 false) := by
  rfl
theorem test_decode_flip : decode (word 0b0100 0b01 0 0 0b0000000000001100) = .ok (.flip .cw 12) := by rfl
theorem test_decode_rdword : decode (word 0b0101 0b10 0 0 0b0000000000000001) = .ok (.rdword .dout 1) := by rfl
theorem test_decode_encode : decode (word 0b0110 0b00 0 0 0b0000000000010000) = .ok (.encode 16) := by rfl
theorem test_decode_decode : decode (word 0b0111 0b00 0 0 0b0000000000100000) = .ok (.decode 32) := by rfl
theorem test_decode_encb : decode (word 0b1000 0b00 0 0 0b0000000000001101) = .ok (.encb 0b1101) := by rfl
theorem test_decode_decb : decode (word 0b1001 0b00 0 0 0b0000000011101100) = .ok (.decb 0b11101100) := by rfl
theorem test_decode_rdrpt : decode (word 0b1010 0b00 0 0 0b0000000000000001) = .ok (.rdrpt 1) := by rfl
theorem test_decode_rdreg : decode (word 0b1011 0b00 0 0 0b0000000000000100) = .ok (.rdreg 4) := by rfl

theorem test_reject_opcodes :
    [0x00000000, 0xC0000000, 0xF000FFFF].map rejectOf = List.replicate 3 (some .reservedOpcode) := by decide
theorem test_reject_zero_field : [0x20020000, 0x22000000].map rejectOf = List.replicate 2 (some .zeroField) := by
  decide
theorem test_reject_buffer : rejectOf 0x2C000000 = some .reservedBuffer := by decide
theorem test_reject_unused_buf : [0x64000004, 0xA4000000].map rejectOf = List.replicate 2 (some .unusedBuf) := by
  decide
theorem test_reject_unused_val : [0x20010000, 0x70010008].map rejectOf = List.replicate 2 (some .unusedVal) := by
  decide
theorem test_reject_blocks : rejectOf 0x80000010 = some .wideDataBlock ∧ rejectOf 0x90000100 = some .wideCodeBlock := by
  decide
theorem test_reject_register : rejectOf 0xB0000005 = some .noSuchRegister := by decide
theorem test_table_word : decodeTableWord 32 0x44000002 = some (.flip .cw 2) ∧ decodeTableWord 8 0x0D = none := by
  decide

/-! ### One step of each command -/

theorem test_alloc_clears : coreAfter (exec (.alloc .din 12) desk) =
    { desk.core with din := { words := [], len := 12 } } := by decide
theorem test_alloc_above_capacity : rsp (exec (.alloc .din 17) desk) = some 0xB0000000 ∧
    rsp (exec (.alloc .cw 32) desk) = some 0 := by decide
theorem test_get : rsp (exec (.get .cw 3) desk) = some 0 ∧ rsp (exec (.get .cw 4) desk) = some 1 := by decide
theorem test_get_at_length : rsp (exec (.get .din 8) desk) = some 0xA0000000 := by decide
theorem test_set_word_1 : coreAfter (exec (.set .cw 8 true) desk) =
    { desk.core with cw := { words := [(0, 0xEC), (1, 0xE6)], len := 16 } } := by decide
theorem test_set_at_length : coreAfter (exec (.set .cw 16 true) desk) =
    { desk.core with fault := { v := true, cause := 2 } } := by decide
theorem test_flip_position_2 : coreAfter (exec (.flip .cw 2) desk) =
    { desk.core with cw := { words := [(0, 0xCC), (1, 0x66)], len := 16 } } := by decide
theorem test_flip_at_length : rsp (exec (.flip .dout 4) desk) = some 0xA0000000 := by decide
theorem test_rdword : rsp (exec (.rdword .cw 1) desk) = some 0x66 ∧ rsp (exec (.rdword .dout 0) desk) = some 0xD0 := by
  decide
theorem test_rdword_beyond : rsp (exec (.rdword .din 1) desk) = some 0xA0000000 := by decide
set_option maxRecDepth 4000 in
theorem test_encode : coreAfter (exec (.encode 8) desk) =
    { desk.core with cw := { words := [(0, 0xCC), (1, 0x66)], len := 16 } } := by decide
theorem test_encode_both_violations : rsp (exec (.encode 10) desk) = some 0x90000000 ∧
    rsp (exec (.encode 12) desk) = some 0xA0000000 := by decide
set_option maxRecDepth 4000 in
theorem test_decode_corrects : coreAfter (exec (.decode 16) desk) =
    { desk.core with cw := { words := [(0, 0xCC), (1, 0x66)], len := 16 }, dout := { words := [(0, 0xD6)], len := 8 },
                     rpt := [0x55, 0x00], nrpt := 2 } := by decide
theorem test_decode_both_violations : rsp (exec (.decode 20) desk) = some 0x90000000 ∧
    rsp (exec (.decode 24) desk) = some 0xA0000000 := by decide
theorem test_encb : rsp (exec (.encb 0xD) desk) = some 0xCC ∧ rsp (exec (.encb 0x6) desk) = some 0x66 := by decide
theorem test_decb_classes : rsp (exec (.decb 0xEC) desk) = some 0x0055CC0D ∧
    rsp (exec (.decb 0xCD) desk) = some 0x00F8CD0D ∧ rsp (exec (.decb 0xAC) desk) = some 0x0083AC0B := by decide
theorem test_rdrpt : rsp (exec (.rdrpt 0) desk) = some 0x00550000 := by decide
theorem test_rdrpt_at_nrpt : rsp (exec (.rdrpt 1) desk) = some 0xA0000000 := by decide
theorem test_rdreg : rsp (exec (.rdreg 1) desk) = some 16 ∧ rsp (exec (.rdreg 3) desk) = some 1 := by decide
theorem test_rdreg_fault : rsp (exec (.rdreg 4) (after (exec (.get .din 8) desk) desk)) = some 0x0000000A := by decide

/-- R135: a second violation answers its own cause and leaves `FAULT` at the first. -/
theorem test_second_violation : (coreAfter (exec (.encode 2) (after (exec (.get .din 8) desk) desk))).fault =
    { v := true, cause := 2 } := by decide

theorem test_step_takes_word : rsp (step (State.reset.withFetchWord 32 0x10000004)) = some 0 ∧
    (coreAfter (step (State.reset.withFetchWord 32 0x10000004))).din.len = 4 := by decide
theorem test_step_rejects_word : rsp (step (State.reset.withFetchWord 32 0x2C000000)) = some 0xC0000000 := by decide
theorem test_step_reset : after (step { desk with pending := [.reset, .command 0] }) desk =
    { core := CoreState.reset, pending := [.command 0], responses := [] } := by decide

/-- Writing the value an unlisted word has removes its entry. -/
theorem test_memory_canonical : Memory.write [(0, 0x80), (3, 0x01)] 0 0 = [(3, 0x01)] ∧
    Memory.write [(3, 0x01)] 1 0x10 = [(1, 0x10), (3, 0x01)] := by decide

/-- R68, as program P1 writes it. -/
theorem test_load : assemble .load [.buffer .din, .bits [true, true, false, true]] =
    some [.alloc .din 4, .set .din 0 true, .set .din 1 true, .set .din 2 false, .set .din 3 true] := by decide

/-! ### Witnesses: the hypotheses of each obligation are met -/

/-- Where a command answers, it answers the state that `after` gives. -/
theorem answers_after (i : Instr) (s : State) : exec i s = .next (after (exec i s) s) := by
  obtain ⟨t, ht, _⟩ := exec_answers i s
  rw [ht]
  rfl

theorem witness_EncodeThenDecode : (Instr.rdreg 4).wf = true ∧ (Instr.set .dout 0xFFFF true).wf = true := by decide

theorem witness_DecodedWord : decode 0xB0000004 = .ok (.rdreg 4) := by rfl

/-- A word for each test of R63, and a word for no test. -/
theorem witness_RejectedWord :
    RejectedByR63 0x00000000 ∧ RejectedByR63 0xC0000000 ∧ RejectedByR63 0x20020000 ∧ RejectedByR63 0x2C000000 ∧
      RejectedByR63 0x64000004 ∧ RejectedByR63 0x20010000 ∧ RejectedByR63 0x80000010 ∧ RejectedByR63 0x90000100 ∧
      RejectedByR63 0xB0000005 ∧ ¬ RejectedByR63 0xB0000004 ∧ ¬ RejectedByR63 0x8000000F ∧
      ¬ RejectedByR63 0x900000FF ∧ ¬ RejectedByR63 0x3801FFFF := by
  simp [RejectedByR63]

theorem witness_pending : (desk.withFetchWord 32 0xB0000005).pending = [.command 0xB0000005] ∧
    decode 0x10000004 = .ok (.alloc .din 4) ∧ desk.pending = [] ∧
    ({ desk with pending := [.reset] } : State).pending = .reset :: [] := ⟨rfl, rfl, rfl, rfl⟩

/-- The two ends of the legal range of `NBLK_MAX`, with a length at and a length above a capacity of each. -/
theorem witness_Alloc : Config.NblkLegal 1 ∧ Config.NblkLegal 8191 ∧
    (4 : Arg).toNat ≤ 4 * 1 ∧ 4 * 1 < (5 : Arg).toNat ∧ (65528 : Arg).toNat ≤ 8 * 8191 ∧ 8 * 8191 < (65529 : Arg).toNat := by
  decide

theorem witness_MachineCapacity : (16 : Arg).toNat ≤ capacity nblkMax .din ∧ capacity nblkMax .din < (17 : Arg).toNat ∧
    (32 : Arg).toNat ≤ capacity nblkMax .cw ∧ capacity nblkMax .cw < (33 : Arg).toNat := by decide

/-- The last index in range and the first out of it (GET, SET, FLIP). -/
theorem witness_index : (15 : Arg).toNat < (desk.core.buf .cw).len.toNat ∧
    (desk.core.buf .cw).len.toNat ≤ (16 : Arg).toNat := by decide

/-- A bit buffer whose listed words lie below word `n` reads 0 from index `8 * n` on. -/
theorem bitRead_beyond {m : Memory} {n : Nat} (h : ∀ cell ∈ m, cell.1 < n) {k : Nat} (hk : 8 * n ≤ k) :
    bitRead m k = false := by
  have hz : m.read (k / 8) = 0 := by
    induction m with
    | nil => rfl
    | cons cell rest ih =>
      obtain ⟨a, v⟩ := cell
      have : a < n := h (a, v) (by simp)
      rw [read_cons, if_neg (by omega)]
      exact ih (fun c hc => h c (List.mem_cons_of_mem _ hc))
  rw [bitRead_eq, hz]
  simp

theorem desk_padded (b : Buf) : (desk.core.buf b).Padded := by
  intro k hk
  cases b with
  | din => exact bitRead_beyond (n := 1) (by decide) (Nat.le_trans (by decide) hk)
  | cw => exact bitRead_beyond (n := 2) (by decide) (Nat.le_trans (by decide) hk)
  | dout =>
    by_cases h : 8 ≤ k
    · exact bitRead_beyond (n := 1) (by decide) h
    · have hk' : 4 ≤ k := hk
      have : ∀ j : Fin 8, 4 ≤ j.val → bitRead [(0, 0xD0)] j.val = false := by decide
      exact this ⟨k, by omega⟩ hk'

/-- A word in range, a word partly in range of a padded buffer, and a word out of range. -/
theorem witness_Rdword : (1 : Arg).toNat * 8 < (desk.core.buf .cw).len.toNat ∧
    (0 : Arg).toNat * 8 < (desk.core.buf .dout).len.toNat ∧ (desk.core.buf .dout).Padded ∧
    (desk.core.buf .dout).len.toNat ≤ (0 : Arg).toNat * 8 + 7 ∧
    (desk.core.buf .dout).len.toNat ≤ (1 : Arg).toNat * 8 :=
  ⟨by decide, by decide, desk_padded .dout, by decide, by decide⟩

theorem witness_LawsOfGetSetFlip : (0 : Arg).toNat < (desk.core.buf .cw).len.toNat ∧
    (15 : Arg).toNat < (desk.core.buf .cw).len.toNat ∧ (15 : Arg) ≠ 0 ∧ (desk.core.buf .cw).words.wf = true ∧
    (∃ t, exec (.set .cw 0 true) desk = .next t) ∧ (∃ t, exec (.flip .cw 0) desk = .next t) ∧
    exec (.get .cw 0) desk = .next (afterRead (BitVec.ofNat 16 true.toNat) 0 desk) ∧
    exec (.get .cw 15) desk = .next (afterRead 0 0 desk) :=
  ⟨by decide, by decide, by decide, by decide, ⟨_, answers_after _ _⟩, ⟨_, answers_after _ _⟩, rfl, rfl⟩

theorem witness_Encode : Config.NblkLegal 2 ∧ desk.core.din.len.toNat ≤ 4 * 2 ∧
    (8 : Arg).toNat % 4 = 0 ∧ (8 : Arg).toNat ≤ desk.core.din.len.toNat ∧ (0 : Arg).toNat % 4 = 0 ∧
    (10 : Arg).toNat % 4 ≠ 0 ∧ (12 : Arg).toNat % 4 = 0 ∧ desk.core.din.len.toNat < (12 : Arg).toNat := by decide

theorem witness_Decode : (16 : Arg).toNat % 8 = 0 ∧ (16 : Arg).toNat ≤ desk.core.cw.len.toNat ∧
    (20 : Arg).toNat % 8 ≠ 0 ∧ (24 : Arg).toNat % 8 = 0 ∧ desk.core.cw.len.toNat < (24 : Arg).toNat := by decide

/-- Two states that agree on the first four bits of `DIN` and the first eight of `CW` and differ in the others. -/
theorem witness_ResultsDependOnSourceBitsOnly :
    let other := board { words := [(0, 0xDF)], len := 8 } { words := [(0, 0xEC)], len := 12 } desk.core.din []
    (4 : Arg).toNat % 4 = 0 ∧ (4 : Arg).toNat ≤ desk.core.din.len.toNat ∧ (4 : Arg).toNat ≤ other.core.din.len.toNat ∧
      (∀ k, k < 4 → bitRead desk.core.din.words k = bitRead other.core.din.words k) ∧
      (8 : Arg).toNat % 8 = 0 ∧ (8 : Arg).toNat ≤ desk.core.cw.len.toNat ∧ (8 : Arg).toNat ≤ other.core.cw.len.toNat ∧
      (∀ k, k < 8 → bitRead desk.core.cw.words k = bitRead other.core.cw.words k) ∧
      (∃ t t', exec (.encode 4) desk = .next t ∧ exec (.encode 4) other = .next t') ∧
      (∃ t t', exec (.decode 8) desk = .next t ∧ exec (.decode 8) other = .next t') :=
  ⟨by decide, by decide, by decide, by decide, by decide, by decide, by decide, by decide,
    ⟨_, _, answers_after _ _, answers_after _ _⟩, ⟨_, _, answers_after _ _, answers_after _ _⟩⟩

/-- A block of each class. -/
theorem witness_SecondDecodeOfABlock : classOf 0xCC = .none ∧ classOf 0xEC = .corrected ∧ classOf 0xAC = .double ∧
    classOf 0xCD = .parity := by decide

theorem witness_MoreThanTwoErrors : onesCount 0b11100000 = 3 ∧ onesCount 0b00001111 = 4 := by decide

theorem witness_SecondDecodePass : (16 : Arg).toNat % 8 = 0 ∧ (16 : Arg).toNat ≤ desk.core.cw.len.toNat ∧
    ∃ t, exec (.decode 16) desk = .next t := ⟨by decide, by decide, _, answers_after _ _⟩

theorem witness_FlipOfABlock : (15 : Arg).toNat < desk.core.cw.len.toNat ∧ ∃ t, exec (.flip .cw 15) desk = .next t :=
  ⟨by decide, _, answers_after _ _⟩

/-- `DIN` of `desk` encoded. -/
def encoded : State := after (exec (.encode 8) desk) desk

theorem witness_RoundTrip : Config.NblkLegal 2 ∧ desk.core.din.len.toNat ≤ 4 * 2 ∧ (8 : Arg).toNat % 4 = 0 ∧
    (8 : Arg).toNat ≤ desk.core.din.len.toNat ∧ exec (.encode 8) desk = .next encoded ∧
    encoded.core.cw = encoded.core.cw :=
  ⟨by decide, by decide, by decide, by decide, answers_after _ _, rfl⟩

set_option maxRecDepth 4000 in
/-- `CW` after errors: none in a block, one at the first and the last position that is corrected (0 and 6), one at
position 7, two at 0 and 3, two at the ends 0 and 7. -/
theorem witness_ErrorsAreHandledBlockByBlock :
    let sent := readCode encoded.core.cw.words 0
    let withBlock (c : Word) : Buffer := { words := [(0, c), (1, 0x66)], len := 16 }
    sent = 0xCC ∧ (withBlock 0xCC).len = encoded.core.cw.len ∧ readCode (withBlock 0xCC).words 0 = sent ∧
      readCode (withBlock 0x4C).words 0 = flipPos sent 0 ∧ readCode (withBlock 0xCE).words 0 = flipPos sent 6 ∧
      readCode (withBlock 0xCD).words 0 = flipPos sent 7 ∧
      readCode (withBlock 0x5C).words 0 = flipPos (flipPos sent 0) 3 ∧
      readCode (withBlock 0x4D).words 0 = flipPos (flipPos sent 0) 7 := by decide

/-- The first position, the last position and the last bit of all. -/
theorem witness_OneInjectedError : (0 : Arg).toNat < 2 * (8 : Arg).toNat ∧ (15 : Arg).toNat < 2 * (8 : Arg).toNat ∧
    (15 : Arg).toNat % 8 = 7 ∧ exec (.encode 8) desk = .next encoded ∧
    (∃ f, exec (.flip .cw 0) encoded = .next f) ∧ (∃ f, exec (.flip .cw 15) encoded = .next f) :=
  ⟨by decide, by decide, by decide, answers_after _ _, ⟨_, answers_after _ _⟩, ⟨_, answers_after _ _⟩⟩

/-- An entry in range and the first out of it, before and after a `DECODE`. -/
theorem witness_Rdrpt : (0 : Arg).toNat < desk.core.nrpt.toNat ∧ desk.core.nrpt.toNat ≤ (1 : Arg).toNat ∧
    (∃ s, exec (.decode 16) desk = .next s) ∧ (1 : Arg).toNat < (16 : Arg).toNat / 8 ∧
    (16 : Arg).toNat / 8 ≤ (2 : Arg).toNat :=
  ⟨by decide, by decide, ⟨_, answers_after _ _⟩, by decide, by decide⟩

theorem witness_Rdreg : (4 : Arg).toNat ≤ 4 ∧ 4 < (5 : Arg).toNat := by decide

/-- A command that is performed and one that is not. -/
theorem witness_ViolationsArePrecise : (∃ t, exec (.get .din 7) desk = .next t ∧ t.responses.map Response.err = [false]) ∧
    ∃ t, exec (.get .din 8) desk = .next t ∧ t.responses.map Response.err = [true] :=
  ⟨⟨_, answers_after _ _, by decide⟩, ⟨_, answers_after _ _, by decide⟩⟩

set_option maxRecDepth 4000 in
/-- Steps that change a length, a content and the log. -/
theorem witness_OnlyTheNamedCommandsWrite :
    (∃ t, exec (.alloc .dout 8) desk = .next t ∧ (t.core.buf .dout).len ≠ (desk.core.buf .dout).len) ∧
    (∃ t, exec (.flip .din 0) desk = .next t ∧ (t.core.buf .din).words ≠ (desk.core.buf .din).words) ∧
    ∃ t, exec (.decode 16) desk = .next t ∧ t.core.nrpt ≠ desk.core.nrpt :=
  ⟨⟨_, answers_after _ _, by decide⟩, ⟨_, answers_after _ _, by decide⟩, ⟨_, answers_after _ _, by decide⟩⟩

/-- Each of the six reading commands, performed. -/
theorem witness_ReadsHaveNoSideEffect :
    ∀ i ∈ [Instr.get .din 7, .rdword .cw 1, .rdrpt 0, .rdreg 4, .encb 15, .decb 255],
      exec i desk = .next (after (exec i desk) desk) ∧
        ∃ r, (after (exec i desk) desk).responses = desk.responses ++ [r] ∧ r.err = false := by
  intro i hi
  refine ⟨answers_after i desk, ?_⟩
  simp only [List.mem_cons, List.not_mem_nil, or_false] at hi
  rcases hi with rfl | rfl | rfl | rfl | rfl | rfl <;> exact ⟨_, rfl, rfl⟩

/-- `desk` with the first fault recorded and a reset asked. -/
def faulted : State :=
  { desk with core := { desk.core with fault := { v := true, cause := 2 } }, pending := [.reset] }

theorem witness_OnlyResetClearsFault : step faulted = .next { faulted with core := CoreState.reset, pending := [] } ∧
    faulted.core.fault.v = true ∧ CoreState.reset.fault ≠ faulted.core.fault := ⟨rfl, rfl, by decide⟩

/-- A run of two commands from a clear `FAULT`, and one from a recorded fault. -/
theorem witness_FaultOfARun :
    (∀ q ∈ ({ desk with pending := [.command 0x20000008, .command 0x60000002] } : State).pending, q ≠ .reset) ∧
      (∃ t, Host.Core.run Sys2Proof.core 2 { desk with pending := [.command 0x20000008, .command 0x60000002] } =
        .next t) ∧
      (∀ q ∈ ({ faulted with pending := [] } : State).pending, q ≠ .reset) ∧
      ∃ t, Host.Core.run Sys2Proof.core 1 { faulted with pending := [] } = .next t :=
  ⟨by decide, ⟨_, rfl⟩, by decide, ⟨_, rfl⟩⟩

theorem desk_ok : desk.core.Ok 2 where
  buffers b := by
    refine ⟨?_, ?_, desk_padded b⟩ <;> cases b <;> decide
  logged := by decide
  logFits := by decide
  logLegal := by decide
  faultOk := ⟨fun _ => rfl, fun h => absurd h (by decide)⟩

/-- A state that meets the invariant, with something stored, logged and asked; at this capacity and at a smaller one. -/
theorem witness_Inv : Config.NblkLegal 2 ∧ Inv 2 (desk.withFetchWord 32 0x70000010) ∧
    (∃ t, stepAt 2 (desk.withFetchWord 32 0x70000010) = .next t) ∧ Config.NblkLegal 8191 :=
  ⟨by decide, ⟨desk_ok, fun r hr => absurd hr List.not_mem_nil⟩, ⟨_, rfl⟩, by decide⟩

theorem witness_InvOfMachine : Inv nblkMax State.reset ∧ ∃ t, step State.reset = .next t := by
  refine ⟨⟨⟨fun b => ⟨?_, ?_, fun k _ => ?_⟩, rfl, by decide, by decide, ⟨fun _ => rfl, fun h => absurd h (by decide)⟩⟩,
    fun r hr => absurd hr List.not_mem_nil⟩, _, rfl⟩ <;> cases b <;> first | rfl | decide | exact bitRead_nil k

theorem witness_IndistinguishableCores : desk.core.Ok 2 ∧
    (∀ b k, k < (desk.core.buf b).len.toNat →
      bitRead (desk.core.buf b).words k = bitRead (desk.core.buf b).words k) := ⟨desk_ok, fun _ _ _ => rfl⟩

/-- A bit string as long as `DIN` holds, and the empty one. -/
theorem witness_Load : (List.replicate 16 true).length ≤ capacity nblkMax .din ∧
    ([] : List Bool).length ≤ capacity 1 .cw ∧ Config.NblkLegal nblkMax := by decide

end Sys2Proof.Tests
end

/-! ### The state and reset (10_state.md R24, R25)

The results of the two passes as functions of their source bits, and what reset leaves. -/

namespace Sys2Proof.Proofs

open Sys2Proof Sys2Proof.Machine

section CodecMemory

variable {m m' : Memory} {n : Nat}

/-- A block is read from its own eight bits alone (R37). -/
theorem readCode_congr {i : Nat} (h : ∀ p, p < 8 → bitRead m (8 * i + p) = bitRead m' (8 * i + p)) :
    readCode m i = readCode m' i := by
  apply block_ext
  intro p hp
  rw [blockPos_readCode _ _ _ hp, blockPos_readCode _ _ _ hp, h p hp]

/-- Sources that agree on `8 * n` bits have the same first `n` codeword blocks. -/
theorem readCode_eq_of_agree (h : ∀ k, k < 8 * n → bitRead m k = bitRead m' k) {i : Nat} (hi : i < n) :
    readCode m i = readCode m' i :=
  readCode_congr fun p hp => h (8 * i + p) (by omega)

/-- The log a pass makes depends only on the blocks it reads. -/
theorem decodeBlocks_rpt_congr (h : ∀ i, i < n → readCode m i = readCode m' i) :
    (decodeBlocks n ⟨m, [], []⟩).rpt = (decodeBlocks n ⟨m', [], []⟩).rpt := by
  rw [rpt_decodeBlocks, rpt_decodeBlocks]
  congr 1
  refine List.map_congr_left fun i hi => ?_
  rw [h i (List.mem_range.mp hi)]

/-- The bits of the first `n` blocks after a pass depend only on the blocks it reads. -/
theorem bitRead_decodeBlocks_cw_congr (h : ∀ i, i < n → readCode m i = readCode m' i) {k : Nat}
    (hk : k < 8 * n) :
    bitRead (decodeBlocks n ⟨m, [], []⟩).cw k = bitRead (decodeBlocks n ⟨m', [], []⟩).cw k := by
  rw [bitRead_decodeBlocks_cw, bitRead_decodeBlocks_cw, if_pos hk, if_pos hk, h (k / 8) (by omega)]

end CodecMemory

section Commands

variable {len : Arg} {s s' t t' : State}

/-- The `ENCODE` half of R24. -/
theorem encode_depends_on_source_bits (h4 : len.toNat % 4 = 0) (hl : len.toNat ≤ s.core.din.len.toNat)
    (hl' : len.toNat ≤ s'.core.din.len.toNat)
    (hbits : ∀ k, k < len.toNat → bitRead s.core.din.words k = bitRead s'.core.din.words k)
    (ht : exec (.encode len) s = .next t) (ht' : exec (.encode len) s' = .next t') :
    t.core.cw = t'.core.cw ∧ ∃ r, t.responses = s.responses ++ [r] ∧ t'.responses = s'.responses ++ [r] := by
  rw [exec_encode_performed h4 hl] at ht
  rw [exec_encode_performed h4 hl'] at ht'
  obtain rfl := next_inj ht
  obtain rfl := next_inj ht'
  have hpass : encodeBlocks s.core.din.words (len.toNat / 4) [] = encodeBlocks s'.core.din.words (len.toNat / 4) [] :=
    encodeBlocks_congr [] _ fun k hk => hbits k (by omega)
  refine ⟨?_, okResponse (BitVec.ofNat 16 (2 * len.toNat)) 0, rfl, rfl⟩
  simp only [← buf_cw, answer_core, setBuf_core, buf_setBuf_self, hpass]

/-- The `DECODE` half of R24. -/
theorem decode_depends_on_source_bits (h8 : len.toNat % 8 = 0) (hl : len.toNat ≤ s.core.cw.len.toNat)
    (hl' : len.toNat ≤ s'.core.cw.len.toNat)
    (hbits : ∀ k, k < len.toNat → bitRead s.core.cw.words k = bitRead s'.core.cw.words k)
    (ht : exec (.decode len) s = .next t) (ht' : exec (.decode len) s' = .next t') :
    t.core.dout = t'.core.dout ∧ t.core.rpt = t'.core.rpt ∧ t.core.nrpt = t'.core.nrpt ∧
      (∀ k, k < len.toNat → bitRead t.core.cw.words k = bitRead t'.core.cw.words k) ∧
      ∃ r, t.responses = s.responses ++ [r] ∧ t'.responses = s'.responses ++ [r] := by
  rw [exec_decode_performed h8 hl] at ht
  rw [exec_decode_performed h8 hl'] at ht'
  obtain rfl := next_inj ht
  obtain rfl := next_inj ht'
  have hblocks : ∀ i, i < len.toNat / 8 → readCode s.core.cw.words i = readCode s'.core.cw.words i :=
    fun _ hi => readCode_eq_of_agree (fun k hk => hbits k (by omega)) hi
  have hdout : (decodePass s.core len).dout = (decodePass s'.core len).dout :=
    decodeBlocks_dout_congr _ fun i hi => by rw [hblocks i hi]
  refine ⟨?_, decodeBlocks_rpt_congr hblocks, rfl, fun k hk => bitRead_decodeBlocks_cw_congr hblocks (by omega),
    okResponse (BitVec.ofNat 16 (len.toNat / 8)) 0, rfl, rfl⟩
  simp only [answer_core, decodedCore_dout, hdout]

end Commands

/-- Settles O21: each pass is determined by the blocks it reads, and those by the first `len` bits of its source. -/
theorem resultsDependOnSourceBitsOnly : Obligations.ResultsDependOnSourceBitsOnly := by
  intro len s s' t t'
  exact ⟨encode_depends_on_source_bits, decode_depends_on_source_bits⟩

/-- Every buffer after reset is the empty one (R25). -/
theorem reset_buf (b : Buf) : State.reset.core.buf b = { words := [], len := 0 } := by cases b <;> rfl

/-- A reset request is obeyed without a response (R122, R150). -/
theorem step_reset {s : State} {rest : List HostRequest} (h : s.pending = .reset :: rest) :
    step s = .next { core := CoreState.reset, pending := rest, responses := s.responses } :=
  takeRequest_reset (runCommand exec) h

/-- Settles O7: with every length and `NRPT` 0 no index is in range, so `GET` and `RDRPT` take `CV_INDEX`. -/
theorem resetLeavesEmptyCore : Obligations.ResetLeavesEmptyCore := by
  refine ⟨fun b => ?_, rfl, rfl, rfl, fun i => ?rdrpt, fun b k => ?get, fun s rest h => ?request⟩
  · rw [reset_buf]
    exact ⟨rfl, read_nil⟩
  case rdrpt => exact exec_rdrpt_violation (Nat.zero_le _)
  case get =>
    refine exec_get_violation ?_
    rw [reset_buf]
    exact Nat.zero_le _
  case request => exact ⟨_, step_reset h, rfl, rfl, rfl⟩

end Sys2Proof.Proofs

namespace Sys2Proof.Proofs

open Sys2Proof Sys2Proof.Machine

/-- A step whose oldest request is a command word is that word's run on the state without it. -/
theorem step_command {s : State} {w : CmdWord} {rest : List HostRequest} (h : s.pending = .command w :: rest) :
    step s = runCommand exec w { s with pending := rest } :=
  takeRequest_command (runCommand exec) h

section RejectedWords

variable {op : BitVec 4} {b : BitVec 2} {z : BitVec 9} {v : BitVec 1} {arg : Arg}

/-- Some test of R63 fails on the fields of a command word; the tests in the order `decodeFields` makes them. -/
def FailsFieldTest (op : BitVec 4) (b : BitVec 2) (z : BitVec 9) (v : BitVec 1) (arg : Arg) : Prop :=
  (op.toNat = 0x0 ∨ 0xC ≤ op.toNat) ∨ z ≠ 0 ∨ (op.toNat ≤ 0x5 ∧ b.toNat = 3) ∨ (0x6 ≤ op.toNat ∧ b ≠ 0) ∨
    (op.toNat ≠ 0x3 ∧ v ≠ 0) ∨ (op.toNat = 0x8 ∧ arg.extractLsb' 4 12 ≠ 0) ∨
    (op.toNat = 0x9 ∧ arg.extractLsb' 8 8 ≠ 0) ∨ (op.toNat = 0xB ∧ 4 < arg.toNat)

/-- The bits of a vector from number `k` up, as an integer. -/
theorem extractLsb'_top_toNat {k m : Nat} (x : BitVec (k + m)) : (x.extractLsb' k m).toNat = x.toNat / 2 ^ k := by
  have hlt : x.toNat / 2 ^ k < 2 ^ m := Nat.div_lt_of_lt_mul (Nat.pow_add 2 k m ▸ x.isLt)
  rw [BitVec.extractLsb'_toNat, Nat.shiftRight_eq_div_pow, Nat.mod_eq_of_lt hlt]

/-- R63 on the integer word and R63 on its fields (R60) reject the same words. -/
theorem rejectedByR63_iff_failsFieldTest (w : CmdWord) :
    RejectedByR63 w.toNat ↔ FailsFieldTest (opField w) (bufField w) (zeroField w) (valField w) (argField w) := by
  have hdata := extractLsb'_top_toNat (k := 4) (m := 12) (argField w)
  have hcode := extractLsb'_top_toNat (k := 8) (m := 8) (argField w)
  simp only [RejectedByR63, FailsFieldTest, BitVec.toNat_ne, BitVec.ofNat_eq_ofNat, BitVec.toNat_zero, hdata, hcode,
    opField_toNat, bufField_toNat, zeroField_toNat, valField_toNat, argField_toNat]
  omega

/-- Every number but 3 names a buffer (R10). -/
theorem withBuf_ok (mk : Buf → Instr) (hb : b.toNat ≠ 3) : ∃ i, withBuf b mk = .ok i := by
  have hlt := b.isLt
  unfold withBuf bufOfNumber
  obtain h | h | h : b.toNat = 0 ∨ b.toNat = 1 ∨ b.toNat = 2 := by omega
  all_goals rw [h]; exact ⟨_, rfl⟩

/-- An opcode of R61 whose buffer number, where it names one, is not 3 selects a command. -/
theorem assembleOperands_ok (hop : ¬ op.toNat = 0x0 ∧ ¬ 0xC ≤ op.toNat) (hbuf : ¬ (op.toNat ≤ 0x5 ∧ b.toNat = 3)) :
    ∃ i, assembleOperands op b v arg = .ok i := by
  unfold assembleOperands
  generalize op.toNat = n at hop hbuf ⊢
  split
  case h_1 | h_2 | h_3 | h_4 | h_5 => exact withBuf_ok _ (by omega)
  case h_12 =>
    simp only [imp_false] at *
    omega
  all_goals exact ⟨_, rfl⟩

/-- Fields that fail a test are rejected, by the first that fails. -/
theorem decodeFields_error (h : FailsFieldTest op b z v arg) : ∃ e, decodeFields op b z v arg = .error e := by
  unfold decodeFields
  split_ifs
  case neg => obtain h | h | h | h | h | h | h | h := h <;> contradiction
  all_goals exact ⟨_, rfl⟩

/-- Fields that pass every test make a command. -/
theorem decodeFields_ok (h : ¬ FailsFieldTest op b z v arg) : ∃ i, decodeFields op b z v arg = .ok i := by
  simp only [FailsFieldTest, not_or] at h
  obtain ⟨hop, hzero, hbuf, hunusedBuf, hval, hdata, hcode, hreg⟩ := h
  unfold decodeFields
  rw [if_neg (not_or.mpr hop), if_neg hzero, if_neg hbuf, if_neg hunusedBuf, if_neg hval, if_neg hdata,
    if_neg hcode, if_neg hreg]
  exact assembleOperands_ok hop hbuf

end RejectedWords

/-- Settles O5: the integer tests of R63 are the decoder's tests on the fields, and where none fails the operands are
assembled without a further rejection. -/
theorem rejectedWordTakesCommandViolation : Obligations.RejectedWordTakesCommandViolation := by
  intro s w rest hreq
  rw [step_command hreq, rejectedByR63_iff_failsFieldTest]
  constructor
  · intro hfails
    obtain ⟨e, he⟩ := decodeFields_error hfails
    exact runCommand_rejected exec _ he
  · intro hpasses
    obtain ⟨i, hi⟩ := decodeFields_ok hpasses
    exact ⟨i, hi, runCommand_ok exec _ hi⟩

end Sys2Proof.Proofs

/-! ### The bit-buffer commands (40_buffer_ops.md R70 to R74)

The words of the commands that name a buffer, what a command that writes one buffer leaves, and the bits that `GET`,
`SET`, `FLIP` and `RDWORD` answer or write. -/

namespace Sys2Proof.Proofs

open Sys2Proof Sys2Proof.Machine

section BufferWords

variable (op : BitVec 4) (b : Buf) (v : Bool) (arg : Arg)

/-- A word given by its fields as integers is the packed word (R60). -/
theorem commandWord_eq_pack (bn : BitVec 2) :
    commandWord op.toNat bn.toNat v.toNat arg.toNat = packCommand op bn v arg := by
  rw [commandWord, ← packCommand_toNat, BitVec.ofNat_toNat, BitVec.setWidth_eq]

theorem bufNumber_toNat : (bufNumber b).toNat = bufIndex b := by cases b <;> rfl

theorem bufIndex_lt : bufIndex b < 3 := by cases b <;> decide

/-- The number of a buffer is read back as that buffer (R10, R63). -/
theorem withBuf_bufNumber (mk : Buf → Instr) : withBuf (bufNumber b) mk = .ok (mk b) := by cases b <;> rfl

/-- The word of a buffer command, opcodes 1 to 5, with `VAL` used by `SET` alone, passes every test of R63. -/
theorem decode_bufferWord (hop : 1 ≤ op.toNat ∧ op.toNat ≤ 5) (hv : op.toNat = 3 ∨ v = false) :
    decode (commandWord op.toNat (bufIndex b) v.toNat arg.toNat) =
      assembleOperands op (bufNumber b) (BitVec.ofBool v) arg := by
  have hbuf := bufIndex_lt b
  have hval : ¬ (op.toNat ≠ 3 ∧ BitVec.ofBool v ≠ 0) := by
    rintro ⟨hne, hv1⟩
    exact hv1 (by rw [hv.resolve_left hne]; rfl)
  rw [← bufNumber_toNat] at hbuf ⊢
  rw [commandWord_eq_pack, decode_pack, decodeFields, if_neg (by omega), if_neg (not_not_intro rfl), if_neg (by omega),
    if_neg (by omega), if_neg hval, if_neg (by omega), if_neg (by omega), if_neg (by omega)]

end BufferWords

section OneBuffer

variable (s : State) (b : Buf) (x : Buffer)

/-- A command that puts buffer `b` and answers has the frame of R26. -/
theorem onlyBufferChanged_setBuf (data : BitVec 16) :
    OnlyBufferChanged b data s ((s.setBuf b x).answer (okResponse data 0)) := by
  refine ⟨fun b' hne => ?_, ?_, ?_, ?_, rfl, rfl⟩
  · rw [answer_core, setBuf_core, buf_setBuf_ne _ _ hne]
  all_goals simp only [answer_core, setBuf_core, core_setBuf_rpt, core_setBuf_nrpt, core_setBuf_fault]

theorem buf_setBuf_answer (r : Response) : ((s.setBuf b x).answer r).core.buf b = x := by
  rw [answer_core, setBuf_core, buf_setBuf_self]

end OneBuffer

section Alloc

variable {nblk : Nat} {b : Buf} {n : Arg} {s : State}

theorem execAt_alloc_performed (h : n.toNat ≤ capacity nblk b) :
    execAt nblk (.alloc b n) s = .next ((s.setBuf b { words := [], len := n }).answer (okResponse 0 0)) :=
  if_neg (Nat.not_lt.mpr h)

theorem execAt_alloc_violation (h : capacity nblk b < n.toNat) :
    execAt nblk (.alloc b n) s = .next (afterViolation 3 s) :=
  if_pos h

end Alloc

/-- Settles O10: within capacity the storage becomes the empty list, in which every word and every bit reads 0. -/
theorem allocClearsBufferAtEveryCapacity : Obligations.AllocClearsBufferAtEveryCapacity := by
  intro nblk b n s _ cap
  refine ⟨?word, fun hfits => ?performed, fun hover => execAt_alloc_violation hover⟩
  case word => exact (decode_bufferWord 1 b false n (by decide) (.inr rfl)).trans (withBuf_bufNumber b _)
  case performed =>
    refine ⟨_, execAt_alloc_performed hfits, onlyBufferChanged_setBuf s b _ 0, ?_⟩
    rw [buf_setBuf_answer]
    exact ⟨rfl, read_nil, bitRead_nil⟩

section Bits

variable (m : Memory) (k : Nat)

/-- The bit at index `k` as R32 writes it: word `k/8` shifted right, its lowest bit. -/
theorem bitRead_toNat : (bitRead m k).toNat = (m.read (k / 8)).toNat / 2 ^ (7 - k % 8) % 2 := by
  rw [bitRead_eq, ← BitVec.testBit_toNat, Nat.toNat_testBit]

/-- A written bit as the words see it: integer bit `7 - k%8` of word `k/8`, and no other (R33). -/
theorem read_bitWrite_getLsbD (v : Bool) (j : Nat) {i : Nat} (hi : i < 8) :
    ((bitWrite m k v).read j).getLsbD i = if j = k / 8 ∧ i = 7 - k % 8 then v else (m.read j).getLsbD i := by
  have hindex : 8 * j + (7 - i) = k ↔ j = k / 8 ∧ i = 7 - k % 8 := by omega
  rw [read_getLsbD _ _ _ hi, read_getLsbD _ _ _ hi, bitRead_bitWrite]
  simp only [hindex]

/-- The bits after an inversion (R73). -/
theorem bitRead_bitFlip (k' : Nat) :
    bitRead (bitWrite m k (!bitRead m k)) k' = if k' = k then !bitRead m k' else bitRead m k' := by
  rw [bitRead_bitWrite]
  split
  · next heq => rw [heq]
  · rfl

/-- The bits of a zero-extended storage word: offset `o` in the word is integer bit `7 - o` (R34). -/
theorem readWord_getLsbD (j : Nat) {o : Nat} (ho : o < 8) :
    ((m.read j).setWidth 16).getLsbD (7 - o) = bitRead m (j * 8 + o) := by
  have hindex : 8 * j + (7 - (7 - o)) = j * 8 + o := by omega
  have hlt : 7 - o < 16 := by omega
  rw [BitVec.getLsbD_setWidth, decide_eq_true hlt, Bool.true_and, read_getLsbD _ _ _ (by omega), hindex]

theorem readWord_getLsbD_high (j : Nat) {i : Nat} (hi : 8 ≤ i) : ((m.read j).setWidth 16).getLsbD i = false := by
  rw [BitVec.getLsbD_setWidth, BitVec.getLsbD_of_ge _ _ hi, Bool.and_false]

end Bits

/-- Settles O12: the answered bit is the shift and mask of R32. -/
theorem getAnswersTheBit : Obligations.GetAnswersTheBit := by
  intro b k s
  refine ⟨?word, fun hin => ?performed, exec_get_violation⟩
  case word => exact (decode_bufferWord 2 b false k (by decide) (.inr rfl)).trans (withBuf_bufNumber b _)
  case performed => rw [exec_get_performed hin, bitRead_toNat]

/-- Settles O13: one written bit, seen as a bit of the buffer and as a bit of a word. -/
theorem setWritesOneBit : Obligations.SetWritesOneBit := by
  intro b k v s
  refine ⟨?word, fun hin => ?performed, exec_set_violation⟩
  case word =>
    have hval : (BitVec.ofBool v == 1#1) = v := by cases v <;> rfl
    refine (decode_bufferWord 3 b v k (by decide) (.inl rfl)).trans ((withBuf_bufNumber b _).trans ?_)
    rw [hval]
  case performed =>
    refine ⟨_, exec_set_performed hin, onlyBufferChanged_setBuf s b _ 0, ?_⟩
    rw [buf_setBuf_answer]
    exact ⟨rfl, fun k' => bitRead_bitWrite _ _ k' v, fun j i hi => read_bitWrite_getLsbD _ _ v j hi⟩

/-- Settles O14: an inversion writes the opposite of the bit that is there. -/
theorem flipInvertsOneBit : Obligations.FlipInvertsOneBit := by
  intro b k s
  refine ⟨?word, fun hin => ?performed, exec_flip_violation⟩
  case word => exact (decode_bufferWord 4 b false k (by decide) (.inr rfl)).trans (withBuf_bufNumber b _)
  case performed =>
    refine ⟨_, exec_flip_performed hin, onlyBufferChanged_setBuf s b _ 0, ?_⟩
    rw [buf_setBuf_answer]
    exact ⟨rfl, fun k' => bitRead_bitFlip _ _ k'⟩

/-- Settles O15: the answered word holds the eight bits of its indices, of which zero padding reads 0. -/
theorem rdwordAnswersEightBits : Obligations.RdwordAnswersEightBits := by
  intro b j s
  refine ⟨?word, fun hin => ?performed, exec_rdword_violation⟩
  case word => exact (decode_bufferWord 5 b false j (by decide) (.inr rfl)).trans (withBuf_bufNumber b _)
  case performed =>
    refine ⟨_, exec_rdword_performed hin, fun o ho => readWord_getLsbD _ _ ho,
      fun i hi => readWord_getLsbD_high _ _ hi, fun hpad o ho hbeyond => ?_⟩
    rw [readWord_getLsbD _ _ ho]
    exact hpad _ hbeyond

end Sys2Proof.Proofs

/-! ### The encoder (41_encoder.md R90 to R97)

The words of the commands that name no buffer, the positions of a codeword, and what `ENCB` and `ENCODE` answer. -/

namespace Sys2Proof.Proofs

open Sys2Proof Sys2Proof.Machine

section PlainWords

variable (op : BitVec 4) (arg : Arg)

/-- A vector below `2 ^ k` has only zeros from bit `k` up. -/
theorem extractLsb'_top_eq_zero {k m : Nat} (x : BitVec (k + m)) (h : x.toNat < 2 ^ k) : x.extractLsb' k m = 0 := by
  apply BitVec.eq_of_toNat_eq
  rw [extractLsb'_top_toNat, Nat.div_eq_of_lt h]
  exact BitVec.toNat_zero.symm

/-- The word of a command that names no buffer, opcodes 6 to 0xB, whose `ARG` fits its operand, passes every test of
R63. -/
theorem decode_plainWord (hop : 6 ≤ op.toNat ∧ op.toNat ≤ 0xB) (hdata : op.toNat ≠ 8 ∨ arg.toNat < 2 ^ 4)
    (hcode : op.toNat ≠ 9 ∨ arg.toNat < 2 ^ 8) (hreg : op.toNat ≠ 0xB ∨ arg.toNat ≤ 4) :
    decode (commandWord op.toNat 0 0 arg.toNat) = assembleOperands op 0 0 arg := by
  have hnarrow4 : ¬ (op.toNat = 8 ∧ arg.extractLsb' 4 12 ≠ 0) := fun ⟨h8, hne⟩ =>
    hne (extractLsb'_top_eq_zero (k := 4) (m := 12) arg (hdata.resolve_left (not_not_intro h8)))
  have hnarrow8 : ¬ (op.toNat = 9 ∧ arg.extractLsb' 8 8 ≠ 0) := fun ⟨h9, hne⟩ =>
    hne (extractLsb'_top_eq_zero (k := 8) (m := 8) arg (hcode.resolve_left (not_not_intro h9)))
  refine (congrArg decode (commandWord_eq_pack op false arg 0)).trans ?_
  rw [decode_pack, decodeFields, if_neg (by omega), if_neg (not_not_intro rfl), if_neg (by omega),
    if_neg (fun h => h.2 rfl), if_neg (fun h => h.2 rfl), if_neg hnarrow4, if_neg hnarrow8, if_neg (by omega)]
  rfl

end PlainWords

section Codeword

variable (d0 d1 d2 d3 : Bool) (d : DataBlock)

/-- The equations of R90 at the eight positions, the last as the parity of the other seven. -/
theorem blockPos_enc84 :
    blockPos (enc84 d0 d1 d2 d3) 0 = d0 ∧ blockPos (enc84 d0 d1 d2 d3) 1 = d1 ∧ blockPos (enc84 d0 d1 d2 d3) 2 = d2 ∧
    blockPos (enc84 d0 d1 d2 d3) 3 = (d0 ^^ d1 ^^ d2) ∧ blockPos (enc84 d0 d1 d2 d3) 4 = d3 ∧
    blockPos (enc84 d0 d1 d2 d3) 5 = (d0 ^^ d1 ^^ d3) ∧ blockPos (enc84 d0 d1 d2 d3) 6 = (d0 ^^ d2 ^^ d3) ∧
    blockPos (enc84 d0 d1 d2 d3) 7 = observedParity (enc84 d0 d1 d2 d3) := by
  obtain ⟨h0, h1, h2, h3, h4, h5, h6, h7⟩ := blockPos_codeOfBits d0 d1 d2 (d0 ^^ d1 ^^ d2) d3 (d0 ^^ d1 ^^ d3)
    (d0 ^^ d2 ^^ d3) (d0 ^^ d1 ^^ d2 ^^ (d0 ^^ d1 ^^ d2) ^^ d3 ^^ (d0 ^^ d1 ^^ d3) ^^ (d0 ^^ d2 ^^ d3))
  refine ⟨h0, h1, h2, h3, h4, h5, h6, ?_⟩
  rw [enc84, observedParity, h0, h1, h2, h3, h4, h5, h6, h7]

/-- The data block at index `4*i` is encoded from its four bits in the buffer (R37, R90). -/
theorem encodeData_readData (m : Memory) (i : Nat) :
    encodeData (readData m i) =
      enc84 (bitRead m (4 * i)) (bitRead m (4 * i + 1)) (bitRead m (4 * i + 2)) (bitRead m (4 * i + 3)) := by
  rw [encodeData, blockPos_readData m i 0 (by decide), blockPos_readData m i 1 (by decide),
    blockPos_readData m i 2 (by decide), blockPos_readData m i 3 (by decide)]
  rfl

/-- A data block as `ARG` of `ENCB` is read back as that block (R62). -/
theorem extractLsb'_setWidth_data : (d.setWidth 16).extractLsb' 0 4 = d := by
  revert d
  decide

end Codeword

/-- Settles O18: the answered codeword is `encodeData d`, whose positions the equations of R90 give. -/
theorem encbAnswersTheCodeword : Obligations.EncbAnswersTheCodeword := by
  intro d s
  refine ⟨?word, encodeData d, rfl, blockPos_enc84 _ _ _ _⟩
  have hfits : (d.setWidth 16).toNat = d.toNat := BitVec.toNat_setWidth_of_le (by decide)
  have hword := decode_plainWord 8 (d.setWidth 16) (by decide) (.inr (hfits ▸ d.isLt)) (.inl (by decide))
    (.inl (by decide))
  rw [hfits] at hword
  exact hword.trans (congrArg (fun x => Except.ok (Instr.encb x)) (extractLsb'_setWidth_data d))

section Encode

variable {len : Arg} {s : State}

theorem exec_encode_badLength (h : len.toNat % 4 ≠ 0) : exec (.encode len) s = .next (afterViolation 1 s) :=
  if_pos h

/-- The length test of `ENCODE` comes before the range test (60_exceptions.md R134). -/
theorem exec_encode_outOfRange (h4 : len.toNat % 4 = 0) (h : s.core.din.len.toNat < len.toNat) :
    exec (.encode len) s = .next (afterViolation 2 s) :=
  (if_neg (not_not_intro h4)).trans (if_pos h)

end Encode

/-- Settles O20: the pass writes block after block into the cleared `CW`, and `2 * len` fits its length register as
`LEN[DIN]` is within the largest capacity. -/
theorem encodeFillsTheCodewordBuffer : Obligations.EncodeFillsTheCodewordBuffer := by
  intro len s
  refine ⟨?word, exec_encode_badLength, exec_encode_outOfRange, fun nblk hlegal hcap h4 hl => ?performed⟩
  case word => exact decode_plainWord 6 len (by decide) (.inl (by decide)) (.inl (by decide)) (.inl (by decide))
  case performed =>
    refine ⟨_, exec_encode_performed h4 hl, onlyBufferChanged_setBuf s .cw _ _, ?_⟩
    rw [← buf_cw, buf_setBuf_answer]
    refine ⟨?length, fun i hi => ?block, fun k hk => ?beyond⟩
    case length =>
      have hmax : nblk ≤ 8191 := hlegal.2
      exact (BitVec.toNat_ofNat _ 16).trans (Nat.mod_eq_of_lt (by omega))
    case block => exact (readCode_encodeBlocks _ _ _ _ hi).trans (encodeData_readData _ _)
    case beyond => rw [bitRead_encodeBlocks, if_neg (by omega), bitRead_nil]

end Sys2Proof.Proofs

/-! ### The decoder (42_decoder.md R100 to R115)

The syndrome and the responses of a block as integers, the row of the policy table as a condition on `(m, s)`, and what
`DECB` and `DECODE` answer. -/

namespace Sys2Proof.Proofs

open Sys2Proof Sys2Proof.Machine

section Integers

/-- Appended vectors as an integer: the left one stands above the width of the right one. -/
theorem append_toNat {n k : Nat} (x : BitVec n) (y : BitVec k) : (x ++ y).toNat = x.toNat * 2 ^ k + y.toNat := by
  rw [BitVec.toNat_append, ← Nat.shiftLeft_add_eq_or_of_lt y.isLt, Nat.shiftLeft_eq]

/-- The data block as an integer (R50, R52). -/
theorem dataOfBits_toNat (d0 d1 d2 d3 : Bool) :
    (dataOfBits d0 d1 d2 d3).toNat = 8 * d0.toNat + 4 * d1.toNat + 2 * d2.toNat + d3.toNat := by
  simp only [dataOfBits, append_toNat, ofBool_toNat]
  omega

/-- The response data of `DECB` as an integer: the block in bits 15:8, the data in bits 3:0 (R110). -/
theorem decbData_eq (c : CodeBlock) (d : DataBlock) :
    c ++ 0#4 ++ d = BitVec.ofNat 16 (c.toNat * 256 + d.toNat) := by
  apply BitVec.eq_of_toNat_eq
  rw [append_toNat, append_toNat, BitVec.toNat_zero, BitVec.toNat_ofNat]
  omega

/-- A report entry as an integer (R58). -/
theorem packReport_eq (k : BlockClass) {pos : Nat} (s : BitVec 3) (hpos : pos < 8) :
    packReport k pos s = BitVec.ofNat 8 (k.code.toNat * 64 + pos * 8 + s.toNat) := by
  apply BitVec.eq_of_toNat_eq
  rw [packReport, append_toNat, append_toNat, BitVec.toNat_ofNat, BitVec.toNat_ofNat]
  omega

/-- A codeword block as `ARG` of `DECB` is read back as that block (R62). -/
theorem extractLsb'_setWidth_code (c : CodeBlock) : (c.setWidth 16).extractLsb' 0 8 = c := by
  apply BitVec.eq_of_toNat_eq
  rw [BitVec.extractLsb'_toNat, BitVec.toNat_setWidth_of_le (by decide), Nat.shiftRight_zero, Nat.mod_eq_of_lt c.isLt]

end Integers

section PolicyTable

variable (c : CodeBlock) (m : Bool) (s : BitVec 3)

/-- Three bits always fit the syndrome, so it is the sum of R101 itself. -/
theorem syndrome_toNat :
    (syndrome c).toNat = 4 * (check3 c).toNat + 2 * (check2 c).toNat + (check1 c).toNat := by
  have h1 := Bool.toNat_le (check1 c)
  have h2 := Bool.toNat_le (check2 c)
  have h3 := Bool.toNat_le (check3 c)
  rw [syndrome, BitVec.toNat_ofNat]
  omega

/-- The rows of the policy table by number (R104, R59). -/
theorem classify_code_toNat :
    (classify m s).code.toNat =
      if m = true then (if s.toNat = 0 then 3 else 1) else (if s.toNat = 0 then 0 else 2) := by
  revert m s
  decide

/-- The position a report names depends on the row only through `m`: `7 - s` is 7 in the `PARITY` row (R105). -/
theorem reportPos_classify : reportPos (classify m s) s = if m = true then 7 - s.toNat else 0 := by
  revert m s
  decide

/-- Only the `CORRECTED` row changes the block, as `CORRECT_P7` is 0 (R104, R106). -/
theorem correctBlock_classify :
    correctBlock c (classify m s) s = if m = true ∧ s.toNat ≠ 0 then flipPos c (7 - s.toNat) else c := by
  have hzero : s.toNat = 0 ↔ s = 0#3 := BitVec.toNat_inj (y := 0#3)
  by_cases hs : s = 0#3
  · cases m <;> simp [classify, correctBlock, Config.correctP7, hs]
  · cases m <;> simp [classify, correctBlock, hzero, hs]

/-- Step 3 on a block: inverted at `7 - s` when `m = 1` and `s` is not 0, else as received (R104). -/
theorem dec84_block :
    (dec84 c).block =
      if mismatch c = true ∧ (syndrome c).toNat ≠ 0 then flipPos c (7 - (syndrome c).toNat) else c :=
  correctBlock_classify c (mismatch c) (syndrome c)

/-- Step 4: the data are positions 0, 1, 2, 4 of the block that step 3 leaves (R107). -/
theorem dec84_data_toNat :
    (dec84 c).data.toNat = 8 * (blockPos (dec84 c).block 0).toNat + 4 * (blockPos (dec84 c).block 1).toNat +
      2 * (blockPos (dec84 c).block 2).toNat + (blockPos (dec84 c).block 4).toNat :=
  dataOfBits_toNat _ _ _ _

/-- The report `{CLASS, POS, S}` of the row of `(m, s)` (R104, R58). -/
theorem dec84_report :
    (dec84 c).report = BitVec.ofNat 8
      ((if mismatch c = true then (if (syndrome c).toNat = 0 then 3 else 1)
        else (if (syndrome c).toNat = 0 then 0 else 2)) * 64 +
        (if mismatch c = true then 7 - (syndrome c).toNat else 0) * 8 + (syndrome c).toNat) := by
  rw [← classify_code_toNat, ← reportPos_classify]
  exact packReport_eq _ _ (reportPos_lt _ _)

/-- `DECB` answers the block and its data, packed, with the report, and leaves the core (R110). -/
theorem exec_decb (st : State) :
    exec (.decb c) st =
      .next (afterRead (BitVec.ofNat 16 ((dec84 c).block.toNat * 256 + (dec84 c).data.toNat)) (dec84 c).report st) := by
  rw [← decbData_eq]
  rfl

end PolicyTable

/-- Settles O22: the four steps are `dec84`'s own, read as integers. -/
theorem decbFollowsThePolicyTable : Obligations.DecbFollowsThePolicyTable := by
  intro c s
  refine ⟨?word, ?performed⟩
  case word =>
    have hfits : (c.setWidth 16).toNat = c.toNat := BitVec.toNat_setWidth_of_le (by decide)
    have hword := decode_plainWord 9 (c.setWidth 16) (by decide) (.inl (by decide)) (.inr (hfits ▸ c.isLt))
      (.inl (by decide))
    rw [hfits] at hword
    exact hword.trans (congrArg (fun x => Except.ok (Instr.decb x)) (extractLsb'_setWidth_code c))
  case performed =>
    rw [exec_decb, dec84_data_toNat, dec84_report, dec84_block, syndrome_toNat]
    rfl

section Decode

variable {len : Arg} {s : State}

theorem exec_decode_badLength (h : len.toNat % 8 ≠ 0) : exec (.decode len) s = .next (afterViolation 1 s) :=
  if_pos h

/-- The length test of `DECODE` comes before the range test (60_exceptions.md R134). -/
theorem exec_decode_outOfRange (h8 : len.toNat % 8 = 0) (h : s.core.cw.len.toNat < len.toNat) :
    exec (.decode len) s = .next (afterViolation 2 s) :=
  (if_neg (not_not_intro h8)).trans (if_pos h)

/-- A fraction of a 16-bit register fits a 16-bit register. -/
theorem toNat_ofNat_div (len : Arg) (n : Nat) : (BitVec.ofNat 16 (len.toNat / n)).toNat = len.toNat / n :=
  (BitVec.toNat_ofNat _ 16).trans (Nat.mod_eq_of_lt (Nat.lt_of_le_of_lt (Nat.div_le_self _ _) len.isLt))

/-- The pass logs one report per block (10_state.md R15). -/
theorem decodePass_rpt_length (c : CoreState) (len : Arg) : (decodePass c len).rpt.length = len.toNat / 8 := by
  rw [decodePass, rpt_decodeBlocks, List.nil_append, List.length_map, List.length_range]

/-- The pass leaves `CW` as it was from `len` on (R112). -/
theorem bitRead_decodePass_cw_beyond (c : CoreState) (len : Arg) {k : Nat} (hk : len.toNat ≤ k) :
    bitRead (decodePass c len).cw k = bitRead c.cw.words k := by
  rw [decodePass, bitRead_decodeBlocks_cw, if_neg (by omega)]

/-- The pass writes no bit of the cleared `DOUT` from `len/2` on (R112). -/
theorem bitRead_decodePass_dout_beyond (c : CoreState) (len : Arg) {k : Nat} (hk : len.toNat / 2 ≤ k) :
    bitRead (decodePass c len).dout k = false := by
  rw [decodePass, bitRead_decodeBlocks_dout, if_neg (by omega), bitRead_nil]

end Decode

/-- Settles O28: every block is still as received when the pass reaches it, so each result is `dec84` of the old block. -/
theorem decodeCorrectsInPlaceBlockByBlock : Obligations.DecodeCorrectsInPlaceBlockByBlock := by
  intro len s
  refine ⟨?word, exec_decode_badLength, exec_decode_outOfRange, fun h8 hl => ?performed⟩
  case word => exact decode_plainWord 7 len (by decide) (.inl (by decide)) (.inl (by decide)) (.inl (by decide))
  case performed =>
    refine ⟨_, exec_decode_performed h8 hl, ?_⟩
    rw [answer_core]
    exact ⟨fun i hi => ⟨readCode_decodeBlocks _ _ i hi, readData_decodeBlocks _ _ i hi, decodePass_report _ len i hi⟩,
      fun k hk => bitRead_decodePass_cw_beyond _ len hk, fun k hk => bitRead_decodePass_dout_beyond _ len hk, rfl,
      toNat_ofNat_div len 2, toNat_ofNat_div len 8, decodePass_rpt_length _ len, rfl, rfl, rfl, rfl⟩

end Sys2Proof.Proofs

/-! ### The registers by number (10_state.md R18; 43_control_ops.md R121)

What `RDREG` answers for a number that names a register and for one that names none. -/

namespace Sys2Proof.Proofs

open Sys2Proof Sys2Proof.Machine

/-- `FAULT` as an integer: `V` in bit 3, `CAUSE` in bits 2:0 (R17). -/
theorem faultRead_eq (f : FaultReg) : f.read = BitVec.ofNat 16 (8 * f.v.toNat + f.cause.toNat) := by
  apply BitVec.eq_of_toNat_eq
  rw [FaultReg.read, BitVec.toNat_setWidth, append_toNat, ofBool_toNat, BitVec.toNat_ofNat]
  omega

section Rdreg

variable {r : Arg} {s : State}

/-- A number above 4 names no register (R18). -/
theorem register_eq_none (c : CoreState) (h : 4 < r.toNat) : c.register r = none := by
  rw [register_eq, if_neg (by omega), if_neg (by omega), if_neg (by omega), if_neg (by omega), if_neg (by omega)]

theorem exec_rdreg_performed {x : BitVec 16} (h : s.core.register r = some x) :
    exec (.rdreg r) s = .next (afterRead x 0 s) := by
  show execRdreg r s = _
  unfold execRdreg
  rw [h]
  rfl

theorem exec_rdreg_violation (h : 4 < r.toNat) : exec (.rdreg r) s = .next (afterViolation 4 s) := by
  show execRdreg r s = _
  unfold execRdreg
  rw [register_eq_none _ h]
  rfl

/-- The register number is the last test of R63, and no other test fails on the word of `RDREG`. -/
theorem decode_rdregWord_rejected (h : 4 < r.toNat) :
    decode (commandWord 0xB 0 0 r.toNat) = .error .noSuchRegister := by
  refine (congrArg decode (commandWord_eq_pack 0xB false r 0)).trans ?_
  rw [decode_pack, decodeFields, if_neg (by decide), if_neg (not_not_intro rfl), if_neg (by decide), if_neg (by decide),
    if_neg (by decide), if_neg (fun h8 => absurd h8.1 (by decide)), if_neg (fun h9 => absurd h9.1 (by decide)),
    if_pos ⟨rfl, h⟩]

end Rdreg

/-- Settles O35: each number up to 4 reads its register, and a number above 4 fails both in the decoder and in the
command. -/
theorem rdregAnswersTheRegister : Obligations.RdregAnswersTheRegister := by
  intro s
  refine ⟨exec_rdreg_performed rfl, exec_rdreg_performed rfl, exec_rdreg_performed rfl, exec_rdreg_performed rfl,
    ?fault, fun r hr => ?word, fun r hr => ⟨decode_rdregWord_rejected hr, exec_rdreg_violation hr⟩⟩
  case fault => exact exec_rdreg_performed (congrArg some (faultRead_eq s.core.fault))
  case word => exact decode_plainWord 0xB r (by decide) (.inl (by decide)) (.inl (by decide)) (.inr hr)

end Sys2Proof.Proofs

/-! ### Violations (60_exceptions.md R133)

What a performed command leaves of `FAULT`, and the two forms a response can have. -/

namespace Sys2Proof.Proofs

open Sys2Proof Sys2Proof.Machine

section Violations

variable {nblk : Nat} {i : Instr} {s t : State} {c c' : CoreState}

/-- Only the fault action writes `FAULT` (R13, R133). -/
theorem performed_fault (h : Performed nblk i c c') : c'.fault = c.fault := by
  cases i with
  | get b k | rdword b j | rdrpt k | rdreg r =>
    obtain ⟨_, rfl⟩ := h
    rfl
  | encb d | decb x =>
    obtain rfl : c' = c := h
    rfl
  | alloc b n | set b k v | flip b k =>
    obtain ⟨_, rfl⟩ := h
    exact core_setBuf_fault ..
  | encode len =>
    obtain ⟨_, _, rfl⟩ := h
    exact core_setBuf_fault ..
  | decode len =>
    obtain ⟨_, _, rfl⟩ := h
    exact decodedCore_fault ..

/-- A command answers once and takes nothing from the port; the error bit of the response tells the fault action from a
performed command. -/
theorem answers_precise (h : Answers nblk i s t) :
    ∃ r, t.responses = s.responses ++ [r] ∧ t.pending = s.pending ∧
      (r.err = true → t = afterViolation r.cause s ∧ 1 ≤ r.cause.toNat ∧ r.cause.toNat ≤ 4) ∧
      (r.err = false → r.cause = 0 ∧ t.core.fault = s.core.fault) := by
  obtain ⟨k, rfl⟩ | ⟨c', data, rpt, hperf, _, rfl⟩ := h
  · exact ⟨_, afterViolation_responses .., rfl, fun _ => ⟨rfl, cause_code_range k⟩,
      fun hok => absurd hok.symm Bool.false_ne_true⟩
  · exact ⟨okResponse data rpt, rfl, rfl, fun herr => absurd herr Bool.false_ne_true,
      fun _ => ⟨rfl, performed_fault hperf⟩⟩

end Violations

/-- Settles O36: every command ends in the fault action or is performed, and each of the two endings is precise. -/
theorem violationsArePrecise : Obligations.ViolationsArePrecise := by
  intro i s t h
  exact answers_precise (answers_of_exec h)

end Sys2Proof.Proofs

/-! ### The command word (30_encoding.md R60 to R63)

Decoding undoes encoding and encoding undoes decoding; a word that decodes lies in the row of its command and in no
other row of the opcode table. -/

namespace Sys2Proof.Proofs

open Sys2Proof Sys2Proof.Machine

section DecodeEncode

variable (op : BitVec 4) (b : Buf) (v : Bool) (arg : Arg)

/-- A packed buffer command, opcodes 1 to 5, passes every test of R63. -/
theorem decode_packBuffer (hop : 1 ≤ op.toNat ∧ op.toNat ≤ 5) (hv : op.toNat = 3 ∨ v = false) :
    decode (packCommand op (bufNumber b) v arg) = assembleOperands op (bufNumber b) (BitVec.ofBool v) arg := by
  rw [← commandWord_eq_pack, bufNumber_toNat]
  exact decode_bufferWord op b v arg hop hv

/-- A packed command that names no buffer, opcodes 6 to 0xB, passes every test of R63 when its `ARG` fits its
operand. -/
theorem decode_packPlain (hop : 6 ≤ op.toNat ∧ op.toNat ≤ 0xB) (hdata : op.toNat ≠ 8 ∨ arg.toNat < 2 ^ 4)
    (hcode : op.toNat ≠ 9 ∨ arg.toNat < 2 ^ 8) (hreg : op.toNat ≠ 0xB ∨ arg.toNat ≤ 4) :
    decode (packCommand op 0 false arg) = assembleOperands op 0 0 arg := by
  rw [← commandWord_eq_pack]
  exact decode_plainWord op arg hop hdata hcode hreg

/-- The two directions of the encoding agree on every command that the decoder can answer. -/
theorem decode_encode {i : Instr} (h : i.wf = true) : decode (encode i) = .ok i := by
  cases i with
  | alloc b n => exact (decode_packBuffer 1 b false n (by decide) (.inr rfl)).trans (withBuf_bufNumber b _)
  | get b k => exact (decode_packBuffer 2 b false k (by decide) (.inr rfl)).trans (withBuf_bufNumber b _)
  | set b k v =>
    have hval : (BitVec.ofBool v == 1#1) = v := by cases v <;> rfl
    refine (decode_packBuffer 3 b v k (by decide) (.inl rfl)).trans ((withBuf_bufNumber b _).trans ?_)
    rw [hval]
  | flip b k => exact (decode_packBuffer 4 b false k (by decide) (.inr rfl)).trans (withBuf_bufNumber b _)
  | rdword b j => exact (decode_packBuffer 5 b false j (by decide) (.inr rfl)).trans (withBuf_bufNumber b _)
  | encode len => exact decode_packPlain 6 len (by decide) (.inl (by decide)) (.inl (by decide)) (.inl (by decide))
  | decode len => exact decode_packPlain 7 len (by decide) (.inl (by decide)) (.inl (by decide)) (.inl (by decide))
  | encb d =>
    have hfits : (d.setWidth 16).toNat < 2 ^ 4 := (BitVec.toNat_setWidth_of_le (by decide)).trans_lt d.isLt
    refine (decode_packPlain 8 _ (by decide) (.inr hfits) (.inl (by decide)) (.inl (by decide))).trans ?_
    exact congrArg (fun x => Except.ok (Instr.encb x)) (extractLsb'_setWidth_data d)
  | decb c =>
    have hfits : (c.setWidth 16).toNat < 2 ^ 8 := (BitVec.toNat_setWidth_of_le (by decide)).trans_lt c.isLt
    refine (decode_packPlain 9 _ (by decide) (.inl (by decide)) (.inr hfits) (.inl (by decide))).trans ?_
    exact congrArg (fun x => Except.ok (Instr.decb x)) (extractLsb'_setWidth_code c)
  | rdrpt k => exact decode_packPlain 0xA k (by decide) (.inl (by decide)) (.inl (by decide)) (.inl (by decide))
  | rdreg r =>
    exact decode_packPlain 0xB r (by decide) (.inl (by decide)) (.inl (by decide)) (.inr (of_decide_eq_true h))

end DecodeEncode

/-- Settles O1: the word of a command passes every test of R63, and its operands are read back from its fields. -/
theorem encodeThenDecodeGivesCommandBack : Obligations.EncodeThenDecodeGivesCommandBack := by
  intro i h
  exact decode_encode h

section EncodeDecode

variable {op : BitVec 4} {b : BitVec 2} {z : BitVec 9} {v : BitVec 1} {arg : Arg} {i : Instr}

/-- Only fields that pass every test of R63 make a command, and the operands are assembled from them. -/
theorem decodeFields_inv (h : decodeFields op b z v arg = .ok i) :
    ¬ FailsFieldTest op b z v arg ∧ assembleOperands op b v arg = .ok i := by
  constructor
  · intro hfails
    obtain ⟨e, he⟩ := decodeFields_error hfails
    exact absurd (h.symm.trans he) (by simp)
  · unfold decodeFields at h
    split_ifs at h
    exact h

/-- A buffer read from a field is the one whose number stands there. -/
theorem withBuf_inv {mk : Buf → Instr} (h : withBuf b mk = .ok i) : ∃ x, bufNumber x = b ∧ i = mk x := by
  have hnumbers : ∀ n : BitVec 2, n = 0 ∨ n = 1 ∨ n = 2 ∨ n = 3 := by decide
  obtain rfl | rfl | rfl | rfl := hnumbers b
  · exact ⟨.din, rfl, (Except.ok.inj h).symm⟩
  · exact ⟨.cw, rfl, (Except.ok.inj h).symm⟩
  · exact ⟨.dout, rfl, (Except.ok.inj h).symm⟩
  · exact absurd h (by simp [withBuf, bufOfNumber])


/-- A vector whose upper part is 0 is its lower part, widened again. -/
theorem setWidth_extractLsb'_low {k m : Nat} (x : BitVec (k + m)) (h : x.extractLsb' k m = 0) :
    (x.extractLsb' 0 k).setWidth (k + m) = x := by
  have hdiv : x.toNat / 2 ^ k = 0 := by
    rw [← extractLsb'_top_toNat, h]
    exact BitVec.toNat_zero
  have hlt : x.toNat < 2 ^ k := (Nat.div_eq_zero_iff_lt (Nat.two_pow_pos k)).mp hdiv
  apply BitVec.eq_of_toNat_eq
  rw [BitVec.toNat_setWidth_of_le (Nat.le_add_right k m), BitVec.extractLsb'_toNat, Nat.shiftRight_zero,
    Nat.mod_eq_of_lt hlt]

/-- The command that fields select, where every test of R63 passes, has these fields as its word. -/
theorem encode_assembled (hpass : ¬ FailsFieldTest op b z v arg) (h : assembleOperands op b v arg = .ok i) :
    encode i = packCommand op b (v == 1#1) arg ∧ i.wf = true := by
  simp only [FailsFieldTest, not_or, not_and, not_not] at hpass
  obtain ⟨hop, -, -, hunusedBuf, hval, hdata, hcode, hreg⟩ := hpass
  have hop4 : op = BitVec.ofNat 4 op.toNat := (BitVec.ofNat_toNat 4 op).symm
  unfold assembleOperands at h
  split at h
  case h_3 heq =>
    obtain ⟨x, rfl, rfl⟩ := withBuf_inv h
    rw [hop4, heq]
    exact ⟨rfl, rfl⟩
  case h_1 heq | h_2 heq | h_4 heq | h_5 heq =>
    obtain ⟨x, rfl, rfl⟩ := withBuf_inv h
    obtain rfl := hval (by omega)
    rw [hop4, heq]
    exact ⟨rfl, rfl⟩
  case h_12 => exact absurd h (by simp)
  all_goals
    obtain rfl := hunusedBuf (by omega)
    obtain rfl := hval (by omega)
    obtain rfl := Except.ok.inj h
  case h_8 heq =>
    rw [hop4, heq]
    exact ⟨congrArg (packCommand 8 0 false) (setWidth_extractLsb'_low (k := 4) (m := 12) arg (hdata heq)), rfl⟩
  case h_9 heq =>
    rw [hop4, heq]
    exact ⟨congrArg (packCommand 9 0 false) (setWidth_extractLsb'_low (k := 8) (m := 8) arg (hcode heq)), rfl⟩
  case h_11 heq =>
    rw [hop4, heq]
    exact ⟨rfl, decide_eq_true (Nat.not_lt.mp (hreg heq))⟩
  case h_6 heq | h_7 heq | h_10 heq =>
    rw [hop4, heq]
    exact ⟨rfl, rfl⟩

theorem encode_of_decode {w : CmdWord} (h : decode w = .ok i) : encode i = w ∧ i.wf = true := by
  obtain ⟨hpass, hassembled⟩ := decodeFields_inv h
  obtain ⟨hword, hwf⟩ := encode_assembled hpass hassembled
  have hbit : ∀ x : BitVec 1, x = BitVec.ofBool (x == 1#1) := by decide
  have hzero : zeroField w = 0 := by
    by_contra hne
    exact hpass (.inr (.inl hne))
  exact ⟨hword.trans (pack_fields w hzero _ (hbit _)), hwf⟩

end EncodeDecode

/-- Settles O2: with the `ZERO` field 0 a word is the packing of its fields, and the command that the fields select is
encoded in them. -/
theorem decodedWordIsItsEncoding : Obligations.DecodedWordIsItsEncoding := by
  intro w i h
  exact encode_of_decode h

section OpcodeTable

variable {w : CmdWord} {i : Instr} {row : OpcodeRow}

/-- The table-row laws of the eleven commands, as one. -/
theorem tableRow_of_wf (h : i.wf = true) :
    ∃ row ∈ opcodeTable, row.mnemonic = mnemonicOf i ∧ row.has (encode i) = true := by
  cases i with
  | alloc b n => exact Laws.TableRow.alloc b n h
  | get b k => exact Laws.TableRow.get b k h
  | set b k v => exact Laws.TableRow.set b k v h
  | flip b k => exact Laws.TableRow.flip b k h
  | rdword b j => exact Laws.TableRow.rdword b j h
  | encode len => exact Laws.TableRow.encode len h
  | decode len => exact Laws.TableRow.decode len h
  | encb d => exact Laws.TableRow.encb d h
  | decb c => exact Laws.TableRow.decb c h
  | rdrpt k => exact Laws.TableRow.rdrpt k h
  | rdreg r => exact Laws.TableRow.rdreg r h

/-- What the mask and the pattern of a row say, field by field (R61): the opcode and `ZERO` are fixed, `BUF` is free in
opcodes 1 to 5 and `VAL` in opcode 3 alone, and of `ARG` only the part above a block is fixed. -/
theorem opcodeTable_fields : ∀ row ∈ opcodeTable,
    (1 ≤ (opField row.pattern).toNat ∧ (opField row.pattern).toNat ≤ 0xB) ∧
    opField row.mask = 15 ∧ (zeroField row.mask = 511 ∧ zeroField row.pattern = 0) ∧
    (6 ≤ (opField row.pattern).toNat → bufField row.mask = 3 ∧ bufField row.pattern = 0) ∧
    ((opField row.pattern).toNat ≠ 3 → valField row.mask = 1 ∧ valField row.pattern = 0) ∧
    ((opField row.pattern).toNat = 8 → (argField row.mask).extractLsb' 4 12 = 4095 ∧
      (argField row.pattern).extractLsb' 4 12 = 0) ∧
    ((opField row.pattern).toNat = 9 → (argField row.mask).extractLsb' 8 8 = 255 ∧
      (argField row.pattern).extractLsb' 8 8 = 0) := by
  decide

/-- Two rows with one opcode are one row, and so are two with one mnemonic. -/
theorem opcodeTable_injective : ∀ row ∈ opcodeTable, ∀ row' ∈ opcodeTable,
    opField row.pattern = opField row'.pattern ∨ row.mnemonic = row'.mnemonic → row = row' := by
  decide

/-- A word under a mask is the pattern in every field that the mask keeps whole. -/
theorem extractLsb'_eq_of_and {N : Nat} {x mask pattern : BitVec N} (h : x &&& mask = pattern) (k n : Nat)
    (hmask : mask.extractLsb' k n = BitVec.allOnes n) : x.extractLsb' k n = pattern.extractLsb' k n := by
  rw [← h, BitVec.extractLsb'_and, hmask, BitVec.and_allOnes]

theorem argField_and {x mask pattern : CmdWord} (h : x &&& mask = pattern) :
    argField x &&& argField mask = argField pattern := by
  rw [← h]
  exact (BitVec.extractLsb'_and).symm

theorem and_mask_of_has (h : row.has w = true) : w &&& row.mask = row.pattern := eq_of_beq h

theorem opField_of_has (hrow : row ∈ opcodeTable) (h : row.has w = true) : opField w = opField row.pattern := by
  obtain ⟨-, hmask, -⟩ := opcodeTable_fields row hrow
  exact extractLsb'_eq_of_and (and_mask_of_has h) 28 4 hmask

/-- A word of a row can fail only the two tests of R63 that mask and pattern do not make. -/
theorem passes_of_has (hrow : row ∈ opcodeTable) (h : row.has w = true)
    (hbuf : (opField w).toNat ≤ 5 → (bufField w).toNat ≠ 3)
    (hreg : (opField w).toNat = 0xB → (argField w).toNat ≤ 4) :
    ¬ FailsFieldTest (opField w) (bufField w) (zeroField w) (valField w) (argField w) := by
  obtain ⟨hop, -, ⟨hzmask, hzero⟩, hbufFixed, hvalFixed, hdataFixed, hcodeFixed⟩ := opcodeTable_fields row hrow
  have hand := and_mask_of_has h
  rw [← opField_of_has hrow h] at hop hbufFixed hvalFixed hdataFixed hcodeFixed
  rintro (hreserved | hz | ⟨hop5, hb⟩ | ⟨hop6, hb⟩ | ⟨hop3, hv⟩ | ⟨hop8, hd⟩ | ⟨hop9, hc⟩ | ⟨hopB, hr⟩)
  · omega
  · exact hz ((extractLsb'_eq_of_and hand 17 9 hzmask).trans hzero)
  · exact hbuf hop5 hb
  · obtain ⟨hmask, hpattern⟩ := hbufFixed hop6
    exact hb ((extractLsb'_eq_of_and hand 26 2 hmask).trans hpattern)
  · obtain ⟨hmask, hpattern⟩ := hvalFixed hop3
    exact hv ((extractLsb'_eq_of_and hand 16 1 hmask).trans hpattern)
  · obtain ⟨hmask, hpattern⟩ := hdataFixed hop8
    exact hd ((extractLsb'_eq_of_and (argField_and hand) 4 12 hmask).trans hpattern)
  · obtain ⟨hmask, hpattern⟩ := hcodeFixed hop9
    exact hc ((extractLsb'_eq_of_and (argField_and hand) 8 8 hmask).trans hpattern)
  · have hle := hreg hopB
    omega

/-- A word that decodes lies in the row of its command and in no other. -/
theorem has_iff_mnemonicOf (h : decode w = .ok i) (hrow : row ∈ opcodeTable) :
    row.has w = true ↔ row.mnemonic = mnemonicOf i := by
  obtain ⟨rfl, hwf⟩ := encode_of_decode h
  obtain ⟨own, hown, hmnemonic, hhas⟩ := tableRow_of_wf hwf
  constructor
  · intro hin
    have hop : opField row.pattern = opField own.pattern :=
      (opField_of_has hrow hin).symm.trans (opField_of_has hown hhas)
    rw [opcodeTable_injective row hrow own hown (.inl hop)]
    exact hmnemonic
  · intro hname
    rw [opcodeTable_injective row hrow own hown (.inr (hname.trans hmnemonic.symm))]
    exact hhas

end OpcodeTable

/-- Settles O3: the opcode tells the rows apart, and a word of a row that meets the constraints fails no test of R63. -/
theorem decodeAcceptsExactlyTheOpcodeTable : Obligations.DecodeAcceptsExactlyTheOpcodeTable := by
  intro w
  refine ⟨fun i h row hrow => has_iff_mnemonicOf h hrow, ?accepts, ?accepted⟩
  case accepts =>
    rintro ⟨i, h⟩
    obtain ⟨rfl, hwf⟩ := encode_of_decode h
    obtain ⟨row, hrow, -, hhas⟩ := tableRow_of_wf hwf
    obtain ⟨hpass, -⟩ := decodeFields_inv h
    rw [← rejectedByR63_iff_failsFieldTest, RejectedByR63] at hpass
    exact ⟨⟨row, hrow, hhas⟩, by omega, by omega⟩
  case accepted =>
    rintro ⟨⟨row, hrow, hhas⟩, hbuf, hreg⟩
    rw [← opField_toNat, ← bufField_toNat] at hbuf
    rw [← opField_toNat, ← argField_toNat] at hreg
    exact decodeFields_ok (passes_of_has hrow hhas hbuf hreg)

/-- Settles O4: each word is decoded by computation. -/
theorem wordsOfTheSpecDecode : Obligations.WordsOfTheSpecDecode := by
  refine ⟨?_, ?_, ?_, ?_, ?_, ?_, ?_, ?_, ?_, ?_, ?_⟩ <;> rfl

end Sys2Proof.Proofs

/-! ### One step (20_memory.md R40, R41; 70_reset_and_hazards.md R153 to R155)

What a step can do, said once, and what follows of the responses and of `FAULT` along a run. -/

namespace Sys2Proof.Proofs

open Sys2Proof Sys2Proof.Machine

/-- Settles O6: the three forms of the list of requests. -/
theorem stepTakesOldestRequest : Obligations.StepTakesOldestRequest := by
  intro s
  refine ⟨fun w rest i hreq hdecode => ?_, fun rest hreq => step_reset hreq, takeRequest_idle (runCommand exec)⟩
  rw [step_command hreq, runCommand_ok exec _ hdecode]

section Step

variable {nblk : Nat} {s t : State}

/-- What a command word leaves: the command it decodes to answers, or it is rejected with `CV_COMMAND`. -/
def WordAnswers (nblk : Nat) (w : CmdWord) (s t : State) : Prop :=
  (∃ i, decode w = .ok i ∧ Answers nblk i s t) ∨ ((∃ e, decode w = .error e) ∧ t = afterViolation Cause.command.code s)

theorem runCommand_answers (nblk : Nat) (w : CmdWord) (s : State) :
    ∃ t, runCommand (execAt nblk) w s = .next t ∧ WordAnswers nblk w s t := by
  cases hw : decode w with
  | ok i =>
    obtain ⟨t, ht, hanswers⟩ := execAt_answers nblk i s
    exact ⟨t, (runCommand_ok _ s hw).trans ht, .inl ⟨i, hw, hanswers⟩⟩
  | error e => exact ⟨_, runCommand_rejected _ s hw, .inr ⟨⟨e, hw⟩, rfl⟩⟩

/-- What a step leaves: an idle core, the core of R25 after a reset request, or what a command word leaves. -/
def StepAnswers (nblk : Nat) (s t : State) : Prop :=
  (s.pending = [] ∧ t = s) ∨
  (∃ rest, s.pending = .reset :: rest ∧ t = { core := CoreState.reset, pending := rest, responses := s.responses }) ∨
  ∃ w rest, s.pending = .command w :: rest ∧ WordAnswers nblk w { s with pending := rest } t

/-- Every step answers a next state (R155), and this is what it answers. -/
theorem stepAt_answers (nblk : Nat) (s : State) : ∃ t, stepAt nblk s = .next t ∧ StepAnswers nblk s t := by
  cases hreq : s.pending with
  | nil => exact ⟨s, takeRequest_idle _ hreq, .inl ⟨hreq, rfl⟩⟩
  | cons q rest =>
    cases q with
    | reset => exact ⟨_, takeRequest_reset _ hreq, .inr (.inl ⟨rest, hreq, rfl⟩)⟩
    | command w =>
      obtain ⟨t, ht, hanswers⟩ := runCommand_answers nblk w { s with pending := rest }
      exact ⟨t, (takeRequest_command _ hreq).trans ht, .inr (.inr ⟨w, rest, hreq, hanswers⟩)⟩

theorem answers_of_stepAt (h : stepAt nblk s = .next t) : StepAnswers nblk s t := by
  obtain ⟨u, hu, hanswers⟩ := stepAt_answers nblk s
  exact next_inj (hu.symm.trans h) ▸ hanswers

theorem answers_of_step (h : step s = .next t) : StepAnswers nblkMax s t :=
  answers_of_stepAt ((stepAt_nblkMax s).trans h)

/-- A command word gets one response, whose error bit tells a violation from a performed command. -/
theorem wordAnswers_precise {w : CmdWord} (h : WordAnswers nblk w s t) :
    ∃ r, t.responses = s.responses ++ [r] ∧ t.pending = s.pending ∧
      (r.err = true → t = afterViolation r.cause s ∧ 1 ≤ r.cause.toNat ∧ r.cause.toNat ≤ 4) ∧
      (r.err = false → r.cause = 0 ∧ t.core.fault = s.core.fault) := by
  obtain ⟨i, -, hanswers⟩ | ⟨-, rfl⟩ := h
  · exact answers_precise hanswers
  · exact ⟨_, afterViolation_responses .., rfl, fun _ => ⟨rfl, cause_code_range .command⟩,
      fun hok => absurd hok.symm Bool.false_ne_true⟩

/-- The one response of the fault action has neither report nor data (R66). -/
theorem eq_of_afterViolation_responses {r : Response} {code : BitVec 3}
    (h : (afterViolation code s).responses = s.responses ++ [r]) :
    r = { err := true, cause := code, rpt := 0, data := 0 } := by
  rw [afterViolation_responses] at h
  exact (List.singleton_inj.mp (List.append_cancel_left h)).symm

end Step

/-- Settles O8: a word is taken, and either ending of its command gives one response of the form of R66. -/
theorem everyCommandGetsOneResponse : Obligations.EveryCommandGetsOneResponse := by
  intro s w rest hreq
  obtain ⟨t, ht, hanswers⟩ := runCommand_answers nblkMax w { s with pending := rest }
  obtain ⟨r, hresponses, hpending, hviolation, hperformed⟩ := wordAnswers_precise hanswers
  have hstep : step s = .next t := (stepAt_nblkMax s).symm.trans ((takeRequest_command _ hreq).trans ht)
  refine ⟨t, r, hstep, hpending, hresponses, fun hok => (hperformed hok).1, fun herr => ?_⟩
  obtain ⟨heq, hmin, hmax⟩ := hviolation herr
  rw [heq] at hresponses
  have hr := eq_of_afterViolation_responses hresponses
  exact ⟨hmin, hmax, congrArg Response.rpt hr, congrArg Response.data hr⟩

/-- Settles O11: only `ALLOC` reads the capacity, and it completes exactly up to it. -/
theorem machineIsOneLegalCapacity : Obligations.MachineIsOneLegalCapacity := by
  refine ⟨nblkMax_legal, by decide, execAt_nblkMax, stepAt_nblkMax, fun b n s hfits => ?_, fun b n s hover => ?_⟩
  · refine ⟨_, (execAt_nblkMax _ s).symm.trans (execAt_alloc_performed hfits), onlyBufferChanged_setBuf s b _ 0, ?_⟩
    rw [buf_setBuf_answer]
    exact ⟨rfl, read_nil⟩
  · exact (execAt_nblkMax _ s).symm.trans (execAt_alloc_violation hover)

section FaultOfARun

/-- `FAULT` after a response: set by the first one with `ERR = 1` (R133). -/
def recordResponse (f : FaultReg) (r : Response) : FaultReg :=
  if f.v = false ∧ r.err = true then { v := true, cause := r.cause } else f

variable {f : FaultReg} {r : Response} {s t : State}

theorem recordResponse_of_set (hv : f.v = true) (r : Response) : recordResponse f r = f :=
  if_neg fun h => Bool.false_ne_true (h.1.symm.trans hv)

theorem recordResponse_of_performed (hr : r.err = false) : recordResponse f r = f :=
  if_neg fun h => Bool.false_ne_true (hr.symm.trans h.2)

/-- A recorded fault stays, whatever is answered. -/
theorem foldl_recordResponse_of_set (hv : f.v = true) (new : List Response) : new.foldl recordResponse f = f := by
  induction new with
  | nil => rfl
  | cons r rest ih => rw [List.foldl_cons, recordResponse_of_set hv, ih]

/-- A clear `FAULT` holds afterwards the cause of the first response with `ERR = 1`, if there is one. -/
theorem foldl_recordResponse_of_clear (hv : f.v = false) (new : List Response) :
    (∀ r, new.find? (fun r => r.err) = some r → new.foldl recordResponse f = { v := true, cause := r.cause }) ∧
    (new.find? (fun r => r.err) = none → new.foldl recordResponse f = f) := by
  induction new with
  | nil => exact ⟨fun r h => absurd h (by simp), fun _ => rfl⟩
  | cons x rest ih =>
    cases hx : x.err with
    | true =>
      rw [List.find?_cons_of_pos hx, List.foldl_cons, recordResponse, if_pos ⟨hv, hx⟩,
        foldl_recordResponse_of_set rfl]
      exact ⟨fun r h => by rw [Option.some.inj h], fun h => absurd h (by simp)⟩
    | false =>
      rw [List.find?_cons_of_neg (by simp [hx]), List.foldl_cons, recordResponse_of_performed hx]
      exact ih

/-- A step that takes no reset request adds responses and records them in `FAULT`. -/
theorem step_records (hpending : ∀ q ∈ s.pending, q ≠ .reset) (h : step s = .next t) :
    (∃ new, t.responses = s.responses ++ new ∧ t.core.fault = new.foldl recordResponse s.core.fault) ∧
      ∀ q ∈ t.pending, q ≠ .reset := by
  obtain ⟨-, rfl⟩ | ⟨rest, hreq, rfl⟩ | ⟨w, rest, hreq, hanswers⟩ := answers_of_step h
  · exact ⟨⟨[], (List.append_nil _).symm, rfl⟩, hpending⟩
  · exact absurd rfl (hpending .reset (hreq ▸ List.mem_cons_self))
  · obtain ⟨r, hresponses, hrest, hviolation, hperformed⟩ := wordAnswers_precise hanswers
    refine ⟨⟨[r], hresponses, ?fault⟩, fun q hq => hpending q ?pending⟩
    case pending =>
      rw [hrest] at hq
      rw [hreq]
      exact List.mem_cons_of_mem _ hq
    case fault =>
      rw [List.foldl_cons, List.foldl_nil]
      cases hr : r.err with
      | false => rw [recordResponse_of_performed hr, (hperformed hr).2]
      | true =>
        rw [(hviolation hr).1, afterViolation_fault, recordResponse]
        cases hv : s.core.fault.v <;> simp [hr]

/-- A run without reset requests adds responses and records them in `FAULT`, in their order. -/
theorem run_records {n : Nat} (hpending : ∀ q ∈ s.pending, q ≠ .reset)
    (h : Host.Core.run Sys2Proof.core n s = .next t) :
    ∃ new, t.responses = s.responses ++ new ∧ t.core.fault = new.foldl recordResponse s.core.fault := by
  induction n generalizing s with
  | zero =>
    obtain rfl : s = t := next_inj h
    exact ⟨[], (List.append_nil _).symm, rfl⟩
  | succ n ih =>
    obtain ⟨u, hu, -⟩ := stepAt_answers nblkMax s
    rw [stepAt_nblkMax] at hu
    rw [core_run_next hu] at h
    obtain ⟨⟨first, hfirst, hfault⟩, hpending'⟩ := step_records hpending hu
    obtain ⟨later, hlater, hfault'⟩ := ih hpending' h
    refine ⟨first ++ later, ?_, ?_⟩
    · rw [hlater, hfirst, List.append_assoc]
    · rw [hfault', hfault, List.foldl_append]

end FaultOfARun

/-- Settles O41: `FAULT` records the responses of a run one by one, and of a list of responses it keeps the first
error. -/
theorem faultRecordsTheFirstViolationOfARun : Obligations.FaultRecordsTheFirstViolationOfARun := by
  intro n s t hpending hrun
  obtain ⟨new, hresponses, hfault⟩ := run_records hpending hrun
  refine ⟨new, hresponses, hfault.trans ?_⟩
  cases hv : s.core.fault.v with
  | true => exact foldl_recordResponse_of_set hv new
  | false =>
    obtain ⟨hfirst, hnone⟩ := foldl_recordResponse_of_clear hv new
    rw [if_neg Bool.false_ne_true]
    split
    · next r hr => exact hfirst r hr
    · next hr => exact hnone hr

/-- Settles O40: an idle step and a command word keep a recorded fault. -/
theorem onlyResetClearsFault : Obligations.OnlyResetClearsFault := by
  intro s t h hv hchanged
  obtain ⟨-, rfl⟩ | ⟨rest, hreq, -⟩ | ⟨w, rest, -, hanswers⟩ := answers_of_step h
  · exact absurd rfl hchanged
  · exact ⟨rest, hreq⟩
  · obtain ⟨r, -, -, hviolation, hperformed⟩ := wordAnswers_precise hanswers
    refine absurd ?_ hchanged
    cases hr : r.err with
    | false => exact (hperformed hr).2
    | true =>
      rw [(hviolation hr).1, afterViolation_fault]
      exact if_pos hv

end Sys2Proof.Proofs

/-! ### Which command does what (10_state.md R26; 20_memory.md R39; 60_exceptions.md R131, R134)

The cause of every command, the buffers and the log that it writes, and that a reading command writes nothing. -/

namespace Sys2Proof.Proofs

open Sys2Proof Sys2Proof.Machine

section Causes

variable {s t : State} {code code' : BitVec 3} {o : Outcome}

/-- The outcome is a next state with one more response, which has this cause, and `ERR = 1` exactly when it is not 0. -/
def RaisesCause (o : Outcome) (s : State) (code : BitVec 3) : Prop :=
  ∃ t r, o = .next t ∧ t.responses = s.responses ++ [r] ∧ (r.err = true ↔ r.cause ≠ 0) ∧ r.cause = code

theorem raisesCause_of_violation (k : Cause) (h : o = .next (afterViolation k.code s)) : RaisesCause o s k.code := by
  have hcode : k.code ≠ 0 := by cases k <;> decide
  exact ⟨_, _, h, afterViolation_responses .., ⟨fun _ => hcode, fun _ => rfl⟩, rfl⟩

theorem raisesCause_of_performed {data : BitVec 16} {rpt : ReportEntry} (h : o = .next t)
    (hresponses : t.responses = s.responses ++ [okResponse data rpt]) : RaisesCause o s 0 :=
  ⟨t, _, h, hresponses, ⟨fun herr => absurd herr Bool.false_ne_true, fun hne => absurd rfl hne⟩, rfl⟩

theorem raisesCause_ite {p : Prop} [Decidable p] (hpos : p → RaisesCause o s code)
    (hneg : ¬ p → RaisesCause o s code') :
    RaisesCause o s (if p then code else code') := by
  split
  · next h => exact hpos h
  · next h => exact hneg h

/-- A number up to 4 names a register (10_state.md R18). -/
theorem register_eq_some {r : Arg} (c : CoreState) (h : r.toNat ≤ 4) : ∃ x, c.register r = some x := by
  rw [register_eq]
  split_ifs
  case neg => omega
  all_goals exact ⟨_, rfl⟩

end Causes

/-- Settles O37: each command is taken on both sides of each of its tests, in the order of R134. -/
theorem eachCommandRaisesItsCauses : Obligations.EachCommandRaisesItsCauses := by
  intro nblk i s _
  cases i with
  | alloc b n =>
    exact raisesCause_ite (fun h => raisesCause_of_violation .capacity (execAt_alloc_violation h))
      (fun h => raisesCause_of_performed (execAt_alloc_performed (Nat.not_lt.mp h)) rfl)
  | get b k =>
    exact raisesCause_ite (fun h => raisesCause_of_violation .index (exec_get_violation h))
      (fun h => raisesCause_of_performed (exec_get_performed (Nat.not_le.mp h)) rfl)
  | set b k v =>
    exact raisesCause_ite (fun h => raisesCause_of_violation .index (exec_set_violation h))
      (fun h => raisesCause_of_performed (exec_set_performed (Nat.not_le.mp h)) rfl)
  | flip b k =>
    exact raisesCause_ite (fun h => raisesCause_of_violation .index (exec_flip_violation h))
      (fun h => raisesCause_of_performed (exec_flip_performed (Nat.not_le.mp h)) rfl)
  | rdword b j =>
    exact raisesCause_ite (fun h => raisesCause_of_violation .index (exec_rdword_violation h))
      (fun h => raisesCause_of_performed (exec_rdword_performed (Nat.not_le.mp h)) rfl)
  | encode len =>
    refine raisesCause_ite (fun h => raisesCause_of_violation .length (exec_encode_badLength h)) fun h4 => ?_
    replace h4 := Decidable.not_not.mp h4
    exact raisesCause_ite (fun h => raisesCause_of_violation .index (exec_encode_outOfRange h4 h))
      (fun h => raisesCause_of_performed (exec_encode_performed h4 (Nat.not_lt.mp h)) rfl)
  | decode len =>
    refine raisesCause_ite (fun h => raisesCause_of_violation .length (exec_decode_badLength h)) fun h8 => ?_
    replace h8 := Decidable.not_not.mp h8
    exact raisesCause_ite (fun h => raisesCause_of_violation .index (exec_decode_outOfRange h8 h))
      (fun h => raisesCause_of_performed (exec_decode_performed h8 (Nat.not_lt.mp h)) rfl)
  | encb d => exact raisesCause_of_performed rfl rfl
  | decb c => exact raisesCause_of_performed rfl rfl
  | rdrpt k =>
    exact raisesCause_ite (fun h => raisesCause_of_violation .index (exec_rdrpt_violation h))
      (fun h => raisesCause_of_performed (exec_rdrpt_performed (Nat.not_le.mp h)) rfl)
  | rdreg r =>
    refine raisesCause_ite (fun h => raisesCause_of_violation .command (exec_rdreg_violation h)) fun h => ?_
    obtain ⟨x, hx⟩ := register_eq_some s.core (Nat.not_lt.mp h)
    exact raisesCause_of_performed (exec_rdreg_performed hx) rfl

section Writers

variable {nblk : Nat} {i : Instr} {c c' : CoreState}

/-- The commands that may change the length of buffer `b` (10_state.md R13). -/
def MayChangeLen (i : Instr) (b : Buf) : Prop :=
  (∃ n, i = .alloc b n) ∨ (b = .cw ∧ ∃ len, i = .encode len) ∨ (b = .dout ∧ ∃ len, i = .decode len)

/-- The commands that may change the content of buffer `b` (10_state.md R26). -/
def MayChangeWords (i : Instr) (b : Buf) : Prop :=
  (∃ n, i = .alloc b n) ∨ (∃ k v, i = .set b k v) ∨ (∃ k, i = .flip b k) ∨ (b = .cw ∧ ∃ len, i = .encode len) ∨
    (b ≠ .din ∧ ∃ len, i = .decode len)

/-- A core changed at most as R26 allows command `i`. -/
def ChangedOnlyBy (i : Instr) (c c' : CoreState) : Prop :=
  (∀ b, (c'.buf b).len ≠ (c.buf b).len → MayChangeLen i b) ∧
  (∀ b, (c'.buf b).words ≠ (c.buf b).words → MayChangeWords i b) ∧
  (c'.rpt ≠ c.rpt ∨ c'.nrpt ≠ c.nrpt → ∃ len, i = .decode len)

theorem changedOnlyBy_of_eq (hbuf : ∀ b, c'.buf b = c.buf b) (hrpt : c'.rpt = c.rpt) (hnrpt : c'.nrpt = c.nrpt) :
    ChangedOnlyBy i c c' :=
  ⟨fun b hne => absurd (congrArg Buffer.len (hbuf b)) hne, fun b hne => absurd (congrArg Buffer.words (hbuf b)) hne,
    fun hne => hne.elim (absurd hrpt) (absurd hnrpt)⟩

/-- A command that puts one buffer needs leave for that buffer alone. -/
theorem changedOnlyBy_setBuf {b : Buf} {x : Buffer} (hlen : x.len ≠ (c.buf b).len → MayChangeLen i b)
    (hwords : x.words ≠ (c.buf b).words → MayChangeWords i b) : ChangedOnlyBy i c (c.setBuf b x) := by
  refine ⟨fun b' hne => ?_, fun b' hne => ?_, fun hne => ?_⟩
  · by_cases hb : b' = b
    · subst hb
      rw [buf_setBuf_self] at hne
      exact hlen hne
    · exact absurd (congrArg Buffer.len (buf_setBuf_ne c x hb)) hne
  · by_cases hb : b' = b
    · subst hb
      rw [buf_setBuf_self] at hne
      exact hwords hne
    · exact absurd (congrArg Buffer.words (buf_setBuf_ne c x hb)) hne
  · rw [core_setBuf_rpt, core_setBuf_nrpt] at hne
    exact hne.elim (absurd rfl) (absurd rfl)

theorem performed_changedOnlyBy (h : Performed nblk i c c') : ChangedOnlyBy i c c' := by
  cases i with
  | alloc b n =>
    obtain ⟨-, rfl⟩ := h
    exact changedOnlyBy_setBuf (fun _ => .inl ⟨n, rfl⟩) fun _ => .inl ⟨n, rfl⟩
  | set b k v =>
    obtain ⟨-, rfl⟩ := h
    exact changedOnlyBy_setBuf (absurd rfl) fun _ => .inr (.inl ⟨k, v, rfl⟩)
  | flip b k =>
    obtain ⟨-, rfl⟩ := h
    exact changedOnlyBy_setBuf (absurd rfl) fun _ => .inr (.inr (.inl ⟨k, rfl⟩))
  | encode len =>
    obtain ⟨-, -, rfl⟩ := h
    exact changedOnlyBy_setBuf (fun _ => .inr (.inl ⟨rfl, len, rfl⟩))
      fun _ => .inr (.inr (.inr (.inl ⟨rfl, len, rfl⟩)))
  | decode len =>
    obtain ⟨-, -, rfl⟩ := h
    refine ⟨fun b hne => .inr (.inr ⟨?_, len, rfl⟩), fun b hne => .inr (.inr (.inr (.inr ⟨?_, len, rfl⟩))),
      fun _ => ⟨len, rfl⟩⟩
    · cases b with
      | din | cw => exact absurd rfl hne
      | dout => rfl
    · rintro rfl
      exact hne rfl
  | get b k | rdword b j | rdrpt k | rdreg r =>
    obtain ⟨-, rfl⟩ := h
    exact changedOnlyBy_of_eq (fun _ => rfl) rfl rfl
  | encb d | decb x =>
    obtain rfl : c' = c := h
    exact changedOnlyBy_of_eq (fun _ => rfl) rfl rfl

end Writers

/-- Settles O38: a violation writes nothing of this, and a performed command what R26 names. -/
theorem onlyTheNamedCommandsWrite : Obligations.OnlyTheNamedCommandsWrite := by
  intro i s t h
  obtain ⟨k, rfl⟩ | ⟨c', data, rpt, hperformed, -, rfl⟩ := answers_of_exec h
  · exact changedOnlyBy_of_eq (fun b => afterViolation_buf s b _) rfl rfl
  · exact performed_changedOnlyBy hperformed

section Reads

variable {nblk : Nat} {i : Instr} {s t : State} {r : Response}

/-- A command whose response has `ERR = 0` was performed. -/
theorem performed_of_answers (h : Answers nblk i s t) (hresponses : t.responses = s.responses ++ [r])
    (hok : r.err = false) : Performed nblk i s.core t.core := by
  obtain ⟨k, rfl⟩ | ⟨c', data, rpt, hperformed, -, rfl⟩ := h
  · rw [eq_of_afterViolation_responses hresponses] at hok
    exact absurd hok.symm Bool.false_ne_true
  · exact hperformed

/-- A command gives the same response wherever the core is the same. -/
theorem exec_same_response {u : State} (h : exec i s = .next t) (hresponses : t.responses = s.responses ++ [r])
    (hcore : u.core = s.core) :
    exec i u = .next { core := t.core, pending := u.pending, responses := u.responses ++ [r] } := by
  obtain ⟨c', r', hall⟩ := execAt_core nblkMax i s.core
  have hs : (⟨c', s.pending, s.responses ++ [r']⟩ : State) = t :=
    next_inj ((hall s.pending s.responses).symm.trans ((execAt_nblkMax i s).trans h))
  subst hs
  obtain rfl : r' = r := List.singleton_inj.mp (List.append_cancel_left hresponses)
  have hu := hall u.pending u.responses
  rw [← hcore, execAt_nblkMax] at hu
  exact hu

end Reads

/-- Settles O39: a performed reading command leaves the core, so that issued again it finds the same core. -/
theorem readsHaveNoSideEffect : Obligations.ReadsHaveNoSideEffect := by
  intro i s t r hread h hresponses hok
  have hperformed := performed_of_answers (answers_of_exec h) hresponses hok
  have hcore : t.core = s.core := by
    cases i with
    | get b k | rdword b j | rdrpt k | rdreg n => exact hperformed.2
    | encb d | decb c => exact hperformed
    | alloc b n | set b k v | flip b k | encode len | decode len => exact hread.elim
  exact ⟨hcore, _, exec_same_response h hresponses hcore, hcore, rfl⟩

end Sys2Proof.Proofs

/-! ### The invariant (10_state.md R11, R13 to R17, R23; 30_encoding.md R59, R66)

Each way a command writes a buffer, the log or `FAULT` keeps the part of the invariant that speaks of it; and what the
invariant says of the storage. -/

namespace Sys2Proof.Proofs

open Sys2Proof Sys2Proof.Machine

section Buffers

variable {cap nblk k : Nat} {x : Buffer} {c : CoreState} {len n : Arg}

theorem ok_empty (hfits : n.toNat ≤ cap) : Buffer.Ok cap { words := [], len := n } where
  canonical := rfl
  fits := hfits
  padded _ _ := bitRead_nil _

/-- A bit written within the length touches no padding. -/
theorem ok_bitWrite (hx : x.Ok cap) (hk : k < x.len.toNat) (v : Bool) :
    Buffer.Ok cap { x with words := bitWrite x.words k v } where
  canonical := wf_bitWrite k v hx.canonical
  fits := hx.fits
  padded j hj := by
    have hne : j ≠ k := (hk.trans_le hj).ne'
    exact (bitRead_bitWrite_ne hne).trans (hx.padded j hj)

/-- Twice a length within the largest capacity of `DIN` fits a length register (43_control_ops.md R125). -/
theorem toNat_double (hlegal : Config.NblkLegal nblk) (hl : len.toNat ≤ 4 * nblk) :
    (BitVec.ofNat 16 (2 * len.toNat)).toNat = 2 * len.toNat := by
  have hmax : nblk ≤ 8191 := hlegal.2
  exact (BitVec.toNat_ofNat _ 16).trans (Nat.mod_eq_of_lt (by omega))

/-- `CW` after `ENCODE` is as long as twice the encoded part of `DIN`, and new. -/
theorem ok_encodeBlocks (hlegal : Config.NblkLegal nblk) (hl : len.toNat ≤ 4 * nblk) (din : Memory) :
    Buffer.Ok (capacity nblk .cw)
      { words := encodeBlocks din (len.toNat / 4) [], len := BitVec.ofNat 16 (2 * len.toNat) } := by
  have hlen := toNat_double hlegal hl
  refine ⟨wf_encodeBlocks din _ rfl, ?fits, fun j hj => ?padded⟩
  case fits =>
    show _ ≤ 8 * nblk
    rw [hlen]
    omega
  case padded =>
    rw [hlen] at hj
    rw [bitRead_encodeBlocks, if_neg (by omega), bitRead_nil]

theorem wf_decodePass (hcw : c.cw.words.wf = true) :
    (decodePass c len).cw.wf = true ∧ (decodePass c len).dout.wf = true :=
  wf_decodeBlocks _ hcw rfl

/-- `CW` after `DECODE`: the pass stays below `len`, which is within the length. -/
theorem ok_decodePass_cw (hcw : c.cw.Ok cap) (hl : len.toNat ≤ c.cw.len.toNat) :
    Buffer.Ok cap { c.cw with words := (decodePass c len).cw } where
  canonical := (wf_decodePass hcw.canonical).1
  fits := hcw.fits
  padded j hj := (bitRead_decodePass_cw_beyond c len (hl.trans hj)).trans (hcw.padded j hj)

/-- `DOUT` after `DECODE`: half as long as the part of `CW` that was decoded, and new. -/
theorem ok_decodePass_dout (hcw : c.cw.Ok (capacity nblk .cw)) (hl : len.toNat ≤ c.cw.len.toNat) :
    Buffer.Ok (capacity nblk .dout)
      { words := (decodePass c len).dout, len := BitVec.ofNat 16 (len.toNat / 2) } := by
  have hcap : c.cw.len.toNat ≤ 8 * nblk := hcw.fits
  have hlen := toNat_ofNat_div len 2
  refine ⟨(wf_decodePass hcw.canonical).2, ?fits, fun j hj => ?padded⟩
  case fits =>
    show _ ≤ 4 * nblk
    rw [hlen]
    omega
  case padded => exact bitRead_decodePass_dout_beyond c len (hlen.ge.trans hj)

end Buffers

section Core

variable {nblk : Nat} {i : Instr} {b : Buf} {x : Buffer} {c c' : CoreState} {len : Arg} {f : FaultReg}

theorem ok_setBuf (h : c.Ok nblk) (hx : x.Ok (capacity nblk b)) : (c.setBuf b x).Ok nblk where
  buffers b' := by
    by_cases hb : b' = b
    · subst hb
      rw [buf_setBuf_self]
      exact hx
    · rw [buf_setBuf_ne _ _ hb]
      exact h.buffers b'
  logged := by rw [core_setBuf_rpt, core_setBuf_nrpt, h.logged]
  logFits := by rw [core_setBuf_nrpt]; exact h.logFits
  logLegal := by rw [core_setBuf_rpt]; exact h.logLegal
  faultOk := by rw [core_setBuf_fault]; exact h.faultOk

theorem ok_withFault (h : c.Ok nblk) (hf : f.Ok) : CoreState.Ok nblk { c with fault := f } where
  buffers b := by
    have hbuf : CoreState.buf { c with fault := f } b = c.buf b := by cases b <;> rfl
    rw [hbuf]
    exact h.buffers b
  logged := h.logged
  logFits := h.logFits
  logLegal := h.logLegal
  faultOk := hf

/-- Every entry that a pass logs is one of the sixteen (30_encoding.md R59). -/
theorem decodePass_rpt_legal (c : CoreState) (len : Arg) : ∀ e ∈ (decodePass c len).rpt, e ∈ legalReports := by
  intro e he
  rw [decodePass, rpt_decodeBlocks, List.nil_append, List.mem_map] at he
  obtain ⟨i, -, rfl⟩ := he
  exact dec84_report_legal _

theorem ok_decodedCore (h : c.Ok nblk) (hl : len.toNat ≤ c.cw.len.toNat) :
    (decodedCore c len (decodePass c len)).Ok nblk := by
  have hcw : c.cw.Ok (capacity nblk .cw) := h.buffers .cw
  have hcap : c.cw.len.toNat ≤ 8 * nblk := hcw.fits
  have hnrpt := toNat_ofNat_div len 8
  refine ⟨fun b => ?buffers, ?logged, ?logFits, decodePass_rpt_legal c len, h.faultOk⟩
  case buffers =>
    cases b with
    | din => exact h.buffers .din
    | cw => exact ok_decodePass_cw hcw hl
    | dout => exact ok_decodePass_dout hcw hl
  case logged => exact (decodePass_rpt_length c len).trans hnrpt.symm
  case logFits =>
    rw [decodedCore_nrpt, hnrpt]
    omega

/-- Every performed command keeps the invariant of the core. -/
theorem performed_ok (hlegal : Config.NblkLegal nblk) (h : c.Ok nblk) (hp : Performed nblk i c c') : c'.Ok nblk := by
  cases i with
  | get b k | rdword b j | rdrpt k | rdreg r =>
    obtain ⟨-, rfl⟩ := hp
    exact h
  | encb d | decb x =>
    obtain rfl : c' = c := hp
    exact h
  | alloc b n =>
    obtain ⟨hfits, rfl⟩ := hp
    exact ok_setBuf h (ok_empty hfits)
  | set b k v | flip b k =>
    obtain ⟨hin, rfl⟩ := hp
    exact ok_setBuf h (ok_bitWrite (h.buffers b) hin _)
  | encode len =>
    obtain ⟨-, hl, rfl⟩ := hp
    exact ok_setBuf h (ok_encodeBlocks hlegal (hl.trans (h.buffers .din).fits) _)
  | decode len =>
    obtain ⟨-, hl, rfl⟩ := hp
    exact ok_decodedCore h hl

theorem ok_reset (nblk : Nat) : CoreState.reset.Ok nblk where
  buffers b := by cases b <;> exact ok_empty (Nat.zero_le _)
  logged := rfl
  logFits := Nat.zero_le _
  logLegal := fun _ h => absurd h List.not_mem_nil
  faultOk := ⟨fun _ => rfl, fun h => absurd h Bool.false_ne_true⟩

theorem zero_mem_legalReports : (0 : ReportEntry) ∈ legalReports := by decide

/-- An entry below `NRPT` is a held one, so every source of a report entry is legal. -/
theorem reportSource_legal {rpt : ReportEntry} (h : c.Ok nblk) (hr : ReportSource c rpt) : rpt ∈ legalReports := by
  obtain rfl | ⟨x, rfl⟩ | ⟨k, hk, rfl⟩ := hr
  · exact zero_mem_legalReports
  · exact dec84_report_legal x
  · rw [← h.logged] at hk
    rw [CoreState.report, List.getD_eq_getElem _ _ hk]
    exact h.logLegal _ (List.getElem_mem hk)

end Core

section Machine

variable {nblk : Nat} {i : Instr} {s t : State}

theorem inv_answered {r : Response} (hs : Inv nblk s) (hcore : t.core.Ok nblk)
    (hresponses : t.responses = s.responses ++ [r]) (hr : r.Ok) : Inv nblk t where
  core := hcore
  answers r' hr' := by
    rw [hresponses, List.mem_append, List.mem_singleton] at hr'
    obtain hold | rfl := hr'
    · exact hs.answers r' hold
    · exact hr

theorem inv_afterViolation (hs : Inv nblk s) (k : Cause) : Inv nblk (afterViolation k.code s) := by
  obtain ⟨hmin, hmax⟩ := cause_code_range k
  refine inv_answered hs (ok_withFault hs.core ?fault) (afterViolation_responses ..) ?response
  case fault =>
    split
    · exact hs.core.faultOk
    · exact ⟨fun h => absurd h.symm Bool.false_ne_true, fun _ => ⟨hmin, hmax⟩⟩
  case response =>
    exact ⟨zero_mem_legalReports, fun h => absurd h.symm Bool.false_ne_true, fun _ => ⟨hmin, hmax, rfl, rfl⟩⟩

theorem answers_inv (hlegal : Config.NblkLegal nblk) (hs : Inv nblk s) (h : Answers nblk i s t) : Inv nblk t := by
  obtain ⟨k, rfl⟩ | ⟨c', data, rpt, hperformed, hsource, rfl⟩ := h
  · exact inv_afterViolation hs k
  · exact inv_answered hs (performed_ok hlegal hs.core hperformed) rfl
      ⟨reportSource_legal hs.core hsource, fun _ => rfl, fun h => absurd h Bool.false_ne_true⟩

theorem stepAt_inv (hlegal : Config.NblkLegal nblk) (hs : Inv nblk s) (h : stepAt nblk s = .next t) : Inv nblk t := by
  obtain ⟨-, rfl⟩ | ⟨rest, -, rfl⟩ | ⟨w, rest, -, hanswers⟩ := answers_of_stepAt h
  · exact hs
  · exact ⟨ok_reset nblk, hs.answers⟩
  · have hrest : Inv nblk { s with pending := rest } := ⟨hs.core, hs.answers⟩
    obtain ⟨i, -, hcommand⟩ | ⟨-, rfl⟩ := hanswers
    · exact answers_inv hlegal hrest hcommand
    · exact inv_afterViolation hrest .command

end Machine

/-- Settles O43: an idle step and a reset keep the invariant, and so do both endings of a command word. -/
theorem stepKeepsInvariant : Obligations.StepKeepsInvariant := by
  refine ⟨fun nblk hlegal s t hs h => stepAt_inv hlegal hs h, fun s t hs h => ?_⟩
  exact stepAt_inv nblkMax_legal hs ((stepAt_nblkMax s).trans h)

/-- Settles O42: the core of R25 meets the invariant, and nothing has been answered. -/
theorem invariantAtReset : Obligations.InvariantAtReset := by
  intro nblk _
  exact ⟨ok_reset nblk, fun _ h => absurd h List.not_mem_nil⟩

section Storage

variable {cap a : Nat} {v : Word} {m : Memory} {x x' : Buffer} {c c' : CoreState}

/-- A word listed in canonical form is the word that is read, and it is not 0. -/
theorem read_of_mem (hwf : m.wf = true) (h : (a, v) ∈ m) : m.read a = v ∧ v ≠ 0 := by
  induction m with
  | nil => exact absurd h List.not_mem_nil
  | cons cell rest ih =>
    obtain ⟨k, x⟩ := cell
    obtain ⟨hx, hlt, hrest⟩ := (wf_cons k x rest).mp hwf
    rw [read_cons]
    obtain heq | htail := List.mem_cons.mp h
    · obtain ⟨rfl, rfl⟩ := Prod.mk.inj heq
      exact ⟨if_pos rfl, hx⟩
    · rw [if_neg (hlt _ htail).ne]
      exact ih hrest htail

/-- A word that is not 0 has a bit that is 1, at an index of its buffer (20_memory.md R34). -/
theorem bitRead_of_read_ne_zero (h : m.read a ≠ 0) : ∃ o, o < 8 ∧ bitRead m (8 * a + o) = true := by
  by_contra hnone
  refine h (BitVec.eq_of_getLsbD_eq fun i hi => ?_)
  rw [read_getLsbD m a i hi]
  exact (Bool.eq_false_iff.mpr fun hbit => hnone ⟨7 - i, by omega, hbit⟩).trans (BitVec.getLsbD_zero).symm

/-- With zero padding a listed word holds an index in range. -/
theorem listed_lt_len (hx : x.Ok cap) (h : (a, v) ∈ x.words) : a * 8 < x.len.toNat := by
  obtain ⟨hread, hv⟩ := read_of_mem hx.canonical h
  obtain ⟨o, -, hbit⟩ := bitRead_of_read_ne_zero (hread.trans_ne hv)
  by_contra hle
  rw [hx.padded (8 * a + o) (by omega)] at hbit
  exact Bool.false_ne_true hbit

/-- Buffers that meet the invariant are told apart by their length or a bit in range. -/
theorem buffer_ext (hx : x.Ok cap) (hx' : x'.Ok cap) (hlen : x.len = x'.len)
    (hbits : ∀ k, k < x.len.toNat → bitRead x.words k = bitRead x'.words k) : x = x' := by
  have hwords : x.words = x'.words := by
    refine memory_ext_bits hx.canonical hx'.canonical fun k => ?_
    by_cases hk : k < x.len.toNat
    · exact hbits k hk
    · rw [hx.padded k (Nat.not_lt.mp hk), hx'.padded k (hlen ▸ Nat.not_lt.mp hk)]
  cases x
  cases x'
  exact congrArg₂ Buffer.mk hwords hlen

theorem core_ext (hbuf : ∀ b, c.buf b = c'.buf b) (hrpt : c.rpt = c'.rpt) (hnrpt : c.nrpt = c'.nrpt)
    (hfault : c.fault = c'.fault) : c = c' := by
  have hdin : c.din = c'.din := hbuf .din
  have hcw : c.cw = c'.cw := hbuf .cw
  have hdout : c.dout = c'.dout := hbuf .dout
  cases c
  cases c'
  simp_all only

end Storage

/-- Settles O44: a listed word holds a bit that is 1, which zero padding leaves only below the length. -/
theorem storageStaysWithinItsWords : Obligations.StorageStaysWithinItsWords := by
  intro nblk c hc b cell hcell
  have hlen := listed_lt_len (hc.buffers b) hcell
  have hcap := (hc.buffers b).fits
  refine ⟨?_, hlen⟩
  show cell.1 < (capacity nblk b + (8 - 1)) / 8
  omega

/-- Settles O45: canonical storage is determined by its bits, which zero padding fixes beyond the length, and the log by
its counted entries. -/
theorem indistinguishableCoresAreEqual : Obligations.IndistinguishableCoresAreEqual := by
  intro nblk c c' hc hc' hlen hbits hnrpt hreport hfault
  refine core_ext (fun b => buffer_ext (hc.buffers b) (hc'.buffers b) (hlen b) (hbits b)) ?log hnrpt hfault
  case log =>
    refine List.ext_getElem (by rw [hc.logged, hc'.logged, hnrpt]) fun i hi hi' => ?_
    have hentry := hreport i (hc.logged ▸ hi)
    rwa [CoreState.report, CoreState.report, List.getD_eq_getElem _ _ hi, List.getD_eq_getElem _ _ hi'] at hentry

end Sys2Proof.Proofs

/-! ### The code and the decoder of one block (41_encoder.md R92, R94; 42_decoder.md R103 to R117)

Encoder, syndrome and mismatch are linear, so the decoder treats a received block as it treats its error pattern, moved
by the codeword that was sent: what it does with errors is a fact about the patterns alone. -/

namespace Sys2Proof.Proofs

open Sys2Proof Sys2Proof.Machine

/-- Settles O9: the fields stand above one another, and bits 27:24 are 0. -/
theorem packedResponseFields : Obligations.PackedResponseFields := by
  intro r
  rw [Response.pack, append_toNat, append_toNat, append_toNat, append_toNat, ofBool_toNat, BitVec.toNat_zero]
  omega

section Linearity

variable (d x y : DataBlock) (c e : CodeBlock)

theorem blockPos_xor {n : Nat} (u v : BitVec n) (p : Nat) : blockPos (u ^^^ v) p = (blockPos u p ^^ blockPos v p) :=
  BitVec.getLsbD_xor

/-- A sum of XORs grows by a pair. -/
theorem xor_pair {s a b p q : Bool} (h : s = (a ^^ b)) : (s ^^ (p ^^ q)) = ((a ^^ p) ^^ (b ^^ q)) := by
  subst h
  revert a b p q
  decide

/-- Each check is an XOR of four positions (R101). -/
theorem checks_xor : check1 (c ^^^ e) = (check1 c ^^ check1 e) ∧ check2 (c ^^^ e) = (check2 c ^^ check2 e) ∧
    check3 (c ^^^ e) = (check3 c ^^ check3 e) := by
  simp only [check1, check2, check3, blockPos_xor]
  exact ⟨xor_pair (xor_pair (xor_pair rfl)), xor_pair (xor_pair (xor_pair rfl)), xor_pair (xor_pair (xor_pair rfl))⟩

/-- The mismatch bit is an XOR of all eight positions (R102). -/
theorem mismatch_xor : mismatch (c ^^^ e) = (mismatch c ^^ mismatch e) := by
  simp only [mismatch, observedParity, blockPos_xor]
  exact xor_pair (xor_pair (xor_pair (xor_pair (xor_pair (xor_pair (xor_pair rfl))))))

theorem syndrome_xor : syndrome (c ^^^ e) = syndrome c ^^^ syndrome e := by
  have hbits : ∀ a1 a2 a3 b1 b2 b3 : Bool,
      BitVec.ofNat 3 (4 * (a3 ^^ b3).toNat + 2 * (a2 ^^ b2).toNat + (a1 ^^ b1).toNat) =
        BitVec.ofNat 3 (4 * a3.toNat + 2 * a2.toNat + a1.toNat) ^^^
          BitVec.ofNat 3 (4 * b3.toNat + 2 * b2.toNat + b1.toNat) := by decide
  obtain ⟨h1, h2, h3⟩ := checks_xor c e
  rw [syndrome, h1, h2, h3]
  exact hbits _ _ _ _ _ _

theorem extractData_xor : extractData (c ^^^ e) = extractData c ^^^ extractData e := by
  have hbits : ∀ a0 a1 a2 a3 b0 b1 b2 b3 : Bool, dataOfBits (a0 ^^ b0) (a1 ^^ b1) (a2 ^^ b2) (a3 ^^ b3) =
      dataOfBits a0 a1 a2 a3 ^^^ dataOfBits b0 b1 b2 b3 := by decide
  simp only [extractData, blockPos_xor]
  exact hbits _ _ _ _ _ _ _ _

theorem flipPos_xor (p : Nat) : flipPos (c ^^^ e) p = c ^^^ flipPos e p := BitVec.xor_assoc ..

theorem flipPos_eq_xor (p : Nat) : flipPos c p = c ^^^ flipPos 0 p := by
  rw [← flipPos_xor]
  exact congrArg (flipPos · p) BitVec.xor_zero.symm

theorem encodeData_xor : encodeData (x ^^^ y) = encodeData x ^^^ encodeData y := by
  revert x y
  decide

/-- A codeword moves the decoder's action on a block: flags and row of the error pattern, block and data shifted. -/
theorem dec84_codeword_xor :
    classOf (encodeData d ^^^ e) = classOf e ∧
    dec84 (encodeData d ^^^ e) =
      { block := encodeData d ^^^ (dec84 e).block, data := d ^^^ (dec84 e).data, report := (dec84 e).report } := by
  obtain ⟨hsyndrome, hmismatch⟩ := encodeData_clean d
  have hs : syndrome (encodeData d ^^^ e) = syndrome e := by rw [syndrome_xor, hsyndrome]; exact BitVec.zero_xor
  have hm : mismatch (encodeData d ^^^ e) = mismatch e := by rw [mismatch_xor, hmismatch, Bool.false_xor]
  have hclass : classOf (encodeData d ^^^ e) = classOf e := by rw [classOf, classOf, hs, hm]
  have hblock : (dec84 (encodeData d ^^^ e)).block = encodeData d ^^^ (dec84 e).block := by
    rw [dec84_block, dec84_block, hs, hm]
    split
    · exact flipPos_xor _ _ _
    · rfl
  have hdata : (dec84 (encodeData d ^^^ e)).data = d ^^^ (dec84 e).data := by
    show extractData (dec84 (encodeData d ^^^ e)).block = _
    rw [hblock, extractData_xor, extractData_encodeData]
    rfl
  have hreport : (dec84 (encodeData d ^^^ e)).report = (dec84 e).report := by
    rw [dec84_report, dec84_report, hs, hm]
  refine ⟨hclass, ?_⟩
  rw [← hblock, ← hdata, ← hreport]

end Linearity

section Rows

variable (c e : CodeBlock)

/-- The flags that select a row of the policy table (R104). -/
theorem classify_eq_none_iff (m : Bool) (s : BitVec 3) : classify m s = .none ↔ m = false ∧ s = 0 := by
  revert m s
  decide

theorem classify_eq_corrected_iff (m : Bool) (s : BitVec 3) : classify m s = .corrected ↔ m = true ∧ s ≠ 0 := by
  revert m s
  decide

theorem classify_odd_iff (m : Bool) (s : BitVec 3) :
    classify m s = .corrected ∨ classify m s = .parity ↔ m = true := by
  revert m s
  decide

/-- A block with clean flags is the codeword of its data (R94, R111). -/
theorem encodeData_extractData : mismatch c = false ∧ syndrome c = 0 → encodeData (extractData c) = c := by
  revert c
  decide

theorem clean_iff_codeword : mismatch c = false ∧ syndrome c = 0 ↔ ∃ d, c = encodeData d := by
  constructor
  · intro hclean
    exact ⟨_, (encodeData_extractData c hclean).symm⟩
  · rintro ⟨d, rfl⟩
    exact (encodeData_clean d).symm

theorem classOf_eq_none_iff : classOf c = .none ↔ ∃ d, c = encodeData d :=
  (classify_eq_none_iff _ _).trans (clean_iff_codeword c)

/-- Only the `CORRECTED` row changes the block, as `CORRECT_P7` is 0 (R104, R106). -/
theorem dec84_block_of_ne_corrected (h : classOf c ≠ .corrected) : (dec84 c).block = c := by
  rw [dec84_block, if_neg]
  rintro ⟨hm, hs⟩
  exact h ((classify_eq_corrected_iff _ _).mpr ⟨hm, fun hzero => hs (congrArg BitVec.toNat hzero)⟩)

/-- Inverting the bit that the syndrome names clears both flags: the block becomes a codeword (R104, R111). -/
theorem clean_of_corrected (h : classOf c = .corrected) :
    mismatch (dec84 c).block = false ∧ syndrome (dec84 c).block = 0 := by
  have hbit : ∀ s : BitVec 3, syndrome (flipPos 0 (7 - s.toNat)) = s ∧ mismatch (flipPos 0 (7 - s.toNat)) = true := by
    decide
  obtain ⟨hm, hs⟩ := (classify_eq_corrected_iff _ _).mp h
  have hblock : (dec84 c).block = c ^^^ flipPos 0 (7 - (syndrome c).toNat) := by
    rw [dec84_block, if_pos ⟨hm, fun hzero => hs (BitVec.eq_of_toNat_eq hzero)⟩, flipPos_eq_xor]
  rw [hblock, mismatch_xor, syndrome_xor, (hbit _).1, (hbit _).2, hm]
  exact ⟨rfl, BitVec.xor_self⟩

/-- `NONE` and `CORRECTED` leave a codeword. -/
theorem dec84_block_codeword (h : classOf c = .none ∨ classOf c = .corrected) :
    ∃ d, (dec84 c).block = encodeData d := by
  obtain hnone | hcorrected := h
  · rw [dec84_block_of_ne_corrected c (by rw [hnone]; decide)]
    exact (classOf_eq_none_iff c).mp hnone
  · exact (clean_iff_codeword _).mp (clean_of_corrected c hcorrected)

end Rows

section ErrorPatterns

variable (d : DataBlock)

/-- A codeword as received without error. -/
theorem dec84_codeword : dec84 (encodeData d) = { block := encodeData d, data := d, report := 0x00 } := by
  have hpattern : dec84 0#8 = { block := 0, data := 0, report := 0x00 } := by decide
  obtain ⟨-, hdec⟩ := dec84_codeword_xor d 0#8
  rw [BitVec.xor_zero, hpattern] at hdec
  rw [hdec]
  exact congrArg₂ (fun b x => Decoded.mk b x 0x00) BitVec.xor_zero BitVec.xor_zero

/-- One error at positions 0 .. 6: the pattern is cleared. -/
theorem dec84_oneError (p : Fin 7) : dec84 (flipPos (encodeData d) p) =
    { block := encodeData d, data := d, report := packReport .corrected p (BitVec.ofNat 3 (7 - p)) } := by
  have hpattern : ∀ p : Fin 7, dec84 (flipPos 0 p) =
      { block := 0, data := 0, report := packReport .corrected p (BitVec.ofNat 3 (7 - p)) } := by decide
  obtain ⟨-, hdec⟩ := dec84_codeword_xor d (flipPos 0 p)
  rw [flipPos_eq_xor, hdec, hpattern]
  exact congrArg₂ (fun b x => Decoded.mk b x _) BitVec.xor_zero BitVec.xor_zero

/-- One error at position 7: the pattern is left, and no data bit stands there. -/
theorem dec84_parityError : dec84 (flipPos (encodeData d) 7) =
    { block := flipPos (encodeData d) 7, data := d, report := 0xF8 } := by
  have hpattern : dec84 (flipPos 0 7) = { block := flipPos 0 7, data := 0, report := 0xF8 } := by decide
  obtain ⟨-, hdec⟩ := dec84_codeword_xor d (flipPos 0 7)
  rw [flipPos_eq_xor, hdec, hpattern]
  exact congrArg (fun x => Decoded.mk _ x _) BitVec.xor_zero

/-- Two errors: the pattern is left, and spares the data exactly when no data position is among the two. -/
theorem dec84_twoErrors (p q : Fin 8) (hne : p ≠ q) :
    classOf (flipPos (flipPos (encodeData d) p) q) = .double ∧
    (dec84 (flipPos (flipPos (encodeData d) p) q)).block = flipPos (flipPos (encodeData d) p) q ∧
    (dec84 (flipPos (flipPos (encodeData d) p) q)).report =
      packReport .double 0 (BitVec.ofNat 3 (7 - p) ^^^ BitVec.ofNat 3 (7 - q)) ∧
    ((dec84 (flipPos (flipPos (encodeData d) p) q)).data = d ↔
      (p = 3 ∨ p = 5 ∨ p = 6 ∨ p = 7) ∧ (q = 3 ∨ q = 5 ∨ q = 6 ∨ q = 7)) := by
  have hpattern : ∀ p q : Fin 8, p ≠ q →
      classOf (flipPos (flipPos 0 p) q) = .double ∧
      (dec84 (flipPos (flipPos 0 p) q)).block = flipPos (flipPos 0 p) q ∧
      (dec84 (flipPos (flipPos 0 p) q)).report =
        packReport .double 0 (BitVec.ofNat 3 (7 - p) ^^^ BitVec.ofNat 3 (7 - q)) ∧
      ((dec84 (flipPos (flipPos 0 p) q)).data = 0 ↔
        (p = 3 ∨ p = 5 ∨ p = 6 ∨ p = 7) ∧ (q = 3 ∨ q = 5 ∨ q = 6 ∨ q = 7)) := by decide
  obtain ⟨hclass, hblock, hreport, hdata⟩ := hpattern p q hne
  obtain ⟨hclass', hdec⟩ := dec84_codeword_xor d (flipPos (flipPos 0 p) q)
  rw [flipPos_eq_xor (encodeData d), flipPos_xor, hdec]
  exact ⟨hclass'.trans hclass, congrArg (encodeData d ^^^ ·) hblock, hreport, xor_left_eq_self_iff.trans hdata⟩

end ErrorPatterns

/-- Settles O25: what `dec84` does with the patterns of no error, one error and two errors, moved by the codeword. -/
theorem singleErrorsCorrectedDoubleErrorsDetected : Obligations.SingleErrorsCorrectedDoubleErrorsDetected :=
  ⟨dec84_codeword, dec84_oneError, dec84_parityError, dec84_twoErrors, dec84_block_codeword⟩

section IntegerForms

variable (c : CodeBlock)

/-- `m` is the parity of the byte, whose integer bits are its positions from 7 down (R103). -/
theorem mismatch_eq_parity8 : mismatch c = parity8 c := by
  revert c
  decide

/-- The row is one of the two with `m = 1` exactly for a pattern of odd weight. -/
theorem odd_iff_corrected_or_parity : onesCount c % 2 = 1 ↔ classOf c = .corrected ∨ classOf c = .parity := by
  have hweight : ∀ x : CodeBlock, onesCount x % 2 = 1 ↔ parity8 x = true := by decide
  exact (hweight c).trans (mismatch_eq_parity8 c ▸ (classify_odd_iff _ _).symm)

end IntegerForms

/-- Settles O23: the masks pick the positions of R101, and a single inverted position of a codeword is a pattern of one
bit, whose syndrome is that bit's number. -/
theorem integerFormsOfTheDecoder : Obligations.IntegerFormsOfTheDecoder := by
  refine ⟨fun c => ⟨?check1, ?check2, ?check3, mismatch_eq_parity8 c, ?flip⟩, fun d p => ?single, by decide⟩
  case check1 | check2 | check3 =>
    revert c
    decide
  case flip =>
    have hbit : ∀ s : BitVec 3, flipPos 0 (7 - s.toNat) = BitVec.ofNat 8 (2 ^ s.toNat) := by decide
    rw [flipPos_eq_xor, hbit]
  case single =>
    have hpattern : ∀ p : Fin 8, (syndrome (flipPos 0 p)).toNat = 7 - p ∧ mismatch (flipPos 0 p) = true := by decide
    obtain ⟨hsyndrome, hmismatch⟩ := encodeData_clean d
    rw [flipPos_eq_xor, syndrome_xor, mismatch_xor, hsyndrome, hmismatch, Bool.false_xor]
    exact (congrArg (fun s => BitVec.toNat s = 7 - p ∧ _) BitVec.zero_xor).mpr (hpattern p)

/-- Settles O19: linearity reduces the distance of two codewords to the weight of one, and the data positions read the
data back. -/
theorem propertiesOfTheCode : Obligations.PropertiesOfTheCode := by
  have hweight : ∀ d, onesCount (encodeData d) = 0 ∨ onesCount (encodeData d) = 4 ∨ onesCount (encodeData d) = 8 := by
    decide
  have hminimum : ∀ d, d ≠ 0 → 4 ≤ onesCount (encodeData d) := by decide
  refine ⟨encodeData_xor, by decide, fun x y h => ?injective, extractData_encodeData, hweight, fun x y hne => ?distance,
    fun d => ?parity, encodeData_clean, by decide, by decide⟩
  case injective => rw [← extractData_encodeData x, h, extractData_encodeData]
  case distance =>
    rw [← encodeData_xor]
    exact hminimum _ (fun hzero => hne (BitVec.xor_eq_zero_iff.mp hzero))
  case parity => rw [← mismatch_eq_parity8, (encodeData_clean d).2]

/-- Settles O24: a report depends on the block only through `(m, s)`, of which there are sixteen values. -/
theorem reportEntriesAreTheSixteen : Obligations.ReportEntriesAreTheSixteen := by
  refine ⟨fun e => ⟨?occurs, ?legal⟩, fun c => ?fields⟩
  case occurs =>
    revert e
    decide
  case legal =>
    rintro ⟨c, rfl⟩
    exact dec84_report_legal c
  case fields =>
    have hreport : (dec84 c).report = packReport (classOf c) (reportPos (classOf c) (syndrome c)) (syndrome c) := rfl
    rw [hreport]
    unfold classOf
    generalize mismatch c = m
    generalize syndrome c = s
    revert m s
    decide

/-- Settles O26: the codeword is taken out of every claim, and what is left is counted over the error patterns. -/
theorem moreThanTwoErrorsAreNotGuaranteed : Obligations.MoreThanTwoErrorsAreNotGuaranteed := by
  intro d
  have hclass : ∀ e, classOf (encodeData d ^^^ e) = classOf e := fun e => (dec84_codeword_xor d e).1
  simp only [hclass]
  refine ⟨fun e => ⟨odd_iff_corrected_or_parity e, classOf_eq_none_iff e, fun hthree hdata => ?wrongData⟩, ?counts⟩
  case wrongData =>
    have hpattern : ∀ x : CodeBlock, onesCount x = 3 → (dec84 x).data ≠ 0 := by decide
    rw [(dec84_codeword_xor d e).2] at hdata
    exact hpattern e hthree (xor_left_eq_self_iff.mp hdata)
  case counts => decide

section SecondDecode

variable (c : CodeBlock)

/-- What the decoder leaves it does not correct again. -/
theorem classOf_dec84_block : classOf (dec84 c).block ≠ .corrected := by
  by_cases h : classOf c = .corrected
  · have hclass : classOf (dec84 c).block = .none := (classify_eq_none_iff _ _).mpr (clean_of_corrected c h)
    rw [hclass]
    decide
  · rwa [dec84_block_of_ne_corrected c h]

theorem dec84_block_twice : (dec84 (dec84 c).block).block = (dec84 c).block :=
  dec84_block_of_ne_corrected _ (classOf_dec84_block c)

theorem dec84_data_twice : (dec84 (dec84 c).block).data = (dec84 c).data :=
  congrArg extractData (dec84_block_twice c)

/-- A codeword is left after `NONE` and `CORRECTED`, and reported `NONE`. -/
theorem dec84_report_twice_codeword (h : classOf c = .none ∨ classOf c = .corrected) :
    (dec84 (dec84 c).block).report = 0x00 := by
  obtain ⟨d, hd⟩ := dec84_block_codeword c h
  rw [hd, dec84_codeword]

end SecondDecode

/-- Settles O27: the block that the decoder leaves is a codeword or the block it received. -/
theorem secondDecodeOfABlock : Obligations.SecondDecodeOfABlock := by
  intro c
  refine ⟨dec84_block_twice c, dec84_data_twice c, dec84_report_twice_codeword c, fun h => ?_⟩
  have hblock : (dec84 c).block = c := dec84_block_of_ne_corrected c (by obtain h | h := h <;> rw [h] <;> decide)
  exact ⟨hblock, congrArg (fun x => (dec84 x).report) hblock⟩

end Sys2Proof.Proofs

/-! ### Bits and blocks of a buffer (20_memory.md R37, R38; 40_buffer_ops.md R73, R75; 42_decoder.md R114)

A block as the bits of one storage word, and what one written bit leaves of the buffers and of the blocks. -/

namespace Sys2Proof.Proofs

open Sys2Proof Sys2Proof.Machine

section BlocksOfWords

variable (m : Memory) (i : Nat)

/-- A codeword block stands in its storage word position for position (R31, R37). -/
theorem readCode_eq_read : readCode m i = m.read i := by
  apply block_ext
  intro p hp
  rw [blockPos_readCode _ _ _ hp, blockPos, read_getLsbD _ _ _ (by omega)]
  congr 1
  omega

/-- Data blocks `2*j` and `2*j + 1` stand in the high and the low half of word `j` (R38). -/
theorem readData_eq_nibble : readData m i = (m.read (i / 2)).extractLsb' (if i % 2 = 0 then 4 else 0) 4 := by
  apply block_ext
  intro p hp
  have hlow : 4 - 1 - p < 4 := by omega
  rw [blockPos_readData _ _ _ hp, blockPos, BitVec.getLsbD_extractLsb', decide_eq_true hlow, Bool.true_and]
  split
  all_goals
    rw [read_getLsbD _ _ _ (by omega)]
    congr 1
    omega

end BlocksOfWords

/-- Settles O17: the bits of a block are bits of one word, and a half of a word is a quotient or a remainder by 16. -/
theorem blocksAreWordsAndNibbles : Obligations.BlocksAreWordsAndNibbles := by
  intro m i
  refine ⟨readCode_eq_read m i, ?_⟩
  rw [readData_eq_nibble]
  by_cases heven : i % 2 = 0
  · rw [if_pos heven, if_pos heven]
    exact extractLsb'_top_toNat (k := 4) (m := 4) _
  · rw [if_neg heven, if_neg heven]
    exact BitVec.extractLsb'_toNat ..

section WrittenBit

variable {b : Buf} {k k' : Arg} {v : Bool} {d : BitVec 16} {s : State}

/-- The state after a performed `SET b, k, v`, or a `FLIP b, k` that finds the opposite of `v` (R72, R73). -/
def bitWritten (b : Buf) (k : Arg) (v : Bool) (s : State) : State :=
  (s.setBuf b { s.core.buf b with words := bitWrite (s.core.buf b).words k.toNat v }).answer (okResponse 0 0)

theorem buf_bitWritten (b : Buf) (k : Arg) (v : Bool) (s : State) :
    (bitWritten b k v s).core.buf b = { s.core.buf b with words := bitWrite (s.core.buf b).words k.toNat v } :=
  buf_setBuf_answer ..

theorem eq_bitWritten_of_set {t : State} (hin : k.toNat < (s.core.buf b).len.toNat)
    (h : exec (.set b k v) s = .next t) : t = bitWritten b k v s :=
  next_inj (h.symm.trans (exec_set_performed hin))

theorem eq_bitWritten_of_flip {t : State} (hin : k.toNat < (s.core.buf b).len.toNat)
    (h : exec (.flip b k) s = .next t) : t = bitWritten b k (!bitRead (s.core.buf b).words k.toNat) s :=
  next_inj (h.symm.trans (exec_flip_performed hin))

/-- In range, the answer of `GET` is the bit and nothing else (R71). -/
theorem get_answers_iff (hin : k.toNat < (s.core.buf b).len.toNat) :
    exec (.get b k) s = .next (afterRead d 0 s) ↔
      d = BitVec.ofNat 16 (bitRead (s.core.buf b).words k.toNat).toNat := by
  rw [exec_get_performed hin]
  constructor
  · intro h
    have hresponses := congrArg State.responses (next_inj h)
    rw [afterRead_responses, afterRead_responses] at hresponses
    exact (congrArg Response.data (List.singleton_inj.mp (List.append_cancel_left hresponses))).symm
  · rintro rfl
    rfl

/-- A bit is read back from its answer. -/
theorem ofNat_toNat_inj {v v' : Bool} (h : BitVec.ofNat 16 v.toNat = BitVec.ofNat 16 v'.toNat) : v = v' := by
  revert v v'
  decide

theorem get_bitWritten_self (hin : k.toNat < (s.core.buf b).len.toNat) :
    exec (.get b k) (bitWritten b k v s) =
      .next (afterRead (BitVec.ofNat 16 v.toNat) 0 (bitWritten b k v s)) := by
  refine (get_answers_iff ?_).mpr ?_
  · rwa [buf_bitWritten]
  · rw [buf_bitWritten, bitRead_bitWrite_self]

theorem get_bitWritten_other (hne : k' ≠ k) (hin : k'.toNat < (s.core.buf b).len.toNat)
    (h : exec (.get b k') s = .next (afterRead d 0 s)) :
    exec (.get b k') (bitWritten b k v s) = .next (afterRead d 0 (bitWritten b k v s)) := by
  refine (get_answers_iff ?_).mpr ?_
  · rwa [buf_bitWritten]
  · rw [buf_bitWritten, bitRead_bitWrite_ne fun heq => hne (BitVec.eq_of_toNat_eq heq)]
    exact (get_answers_iff hin).mp h

/-- Writing a buffer's own content back leaves the core. -/
theorem core_bitWritten_same (h : bitWrite (s.core.buf b).words k.toNat v = (s.core.buf b).words) :
    (bitWritten b k v s).core = s.core := by
  rw [bitWritten, answer_core, setBuf_core, h, setBuf_buf]

theorem core_bitWritten_twice {v' : Bool}
    (h : bitWrite (bitWrite (s.core.buf b).words k.toNat v) k.toNat v' = (s.core.buf b).words) :
    (bitWritten b k v' (bitWritten b k v s)).core = s.core := by
  rw [bitWritten, answer_core, setBuf_core, buf_bitWritten, h, bitWritten, answer_core, setBuf_core, setBuf_setBuf,
    setBuf_buf]

end WrittenBit

/-- Settles O16: (a) to (e) of R75 are the laws of R35 on the storage of the buffer. -/
theorem lawsOfGetSetFlip : Obligations.LawsOfGetSetFlip := by
  intro b k k' v d s t hk hk'
  refine ⟨fun hset => ?readAfterSet, fun hne hwrite hget => ?otherBits, fun hwf hget hset => ?sameBit,
    fun hflip hget => ?readAfterFlip, fun hwf hflip => ?flipTwice⟩
  case readAfterSet =>
    rw [eq_bitWritten_of_set hk hset]
    exact get_bitWritten_self hk
  case otherBits =>
    obtain hset | hflip := hwrite
    · rw [eq_bitWritten_of_set hk hset]
      exact get_bitWritten_other hne hk' hget
    · rw [eq_bitWritten_of_flip hk hflip]
      exact get_bitWritten_other hne hk' hget
  case sameBit =>
    obtain rfl := ofNat_toNat_inj ((get_answers_iff hk).mp hget)
    rw [eq_bitWritten_of_set hk hset]
    exact core_bitWritten_same (bitWrite_same _ hwf)
  case readAfterFlip =>
    obtain rfl := ofNat_toNat_inj ((get_answers_iff hk).mp hget)
    rw [eq_bitWritten_of_flip hk hflip]
    exact get_bitWritten_self hk
  case flipTwice =>
    obtain rfl := eq_bitWritten_of_flip hk hflip
    refine ⟨_, exec_flip_performed ?_, core_bitWritten_twice ?_⟩
    · rwa [buf_bitWritten]
    · rw [buf_bitWritten]
      exact bitFlip_twice _ hwf

section FlippedBlock

variable (m : Memory) (k : Nat)

/-- One inverted bit is one inverted position of the block it stands in (R37, R114). -/
theorem readCode_bitFlip_self :
    readCode (bitWrite m k (!bitRead m k)) (k / 8) = flipPos (readCode m (k / 8)) (k % 8) := by
  apply block_ext
  intro p hp
  rw [blockPos_flipPos _ _ _ (by omega) hp, blockPos_readCode _ _ _ hp, blockPos_readCode _ _ _ hp, bitRead_bitFlip]
  have hindex : 8 * (k / 8) + p = k ↔ p = k % 8 := by omega
  simp only [hindex]

theorem readCode_bitFlip_ne {i : Nat} (hi : i ≠ k / 8) :
    readCode (bitWrite m k (!bitRead m k)) i = readCode m i :=
  readCode_congr fun p hp => bitRead_bitWrite_ne (by omega)

/-- The storage of `CW` after a `FLIP` in range. -/
theorem cw_of_flip {k : Arg} {s t : State} (hin : k.toNat < s.core.cw.len.toNat) (h : exec (.flip .cw k) s = .next t) :
    t.core.cw = { s.core.cw with words := bitWrite s.core.cw.words k.toNat (!bitRead s.core.cw.words k.toNat) } := by
  rw [eq_bitWritten_of_flip (b := .cw) hin h]
  exact buf_bitWritten .cw k _ s

end FlippedBlock

/-- Settles O30: index `k` is position `k%8` of block `k/8`. -/
theorem flipInvertsOnePositionOfOneBlock : Obligations.FlipInvertsOnePositionOfOneBlock := by
  intro k s t hin h
  rw [cw_of_flip hin h]
  exact ⟨readCode_bitFlip_self _ _, fun i hi => readCode_bitFlip_ne _ _ hi⟩

end Sys2Proof.Proofs

/-! ### ENCODE, the host's errors, DECODE (41_encoder.md R98; 42_decoder.md R114; 70_reset_and_hazards.md R157)

A pass after a pass: what `DECODE` finds in `CW` after `DECODE`, after `ENCODE`, and after the host has inverted a
bit. -/

namespace Sys2Proof.Proofs

open Sys2Proof Sys2Proof.Machine

section SecondPass

variable {len : Arg} {c : CoreState} {x : CodeBlock} {i : Nat}

/-- The class of a report is that of its block (30_encoding.md R58). -/
theorem reportClass_dec84 (x : CodeBlock) : reportClass (dec84 x).report = (classOf x).code := by
  obtain ⟨-, hfields⟩ := reportEntriesAreTheSixteen
  obtain ⟨-, hclass, -⟩ := hfields x
  exact hclass

theorem changesBlock_of_ne_corrected {k : BlockClass} (h : k ≠ .corrected) : changesBlock k = false := by
  cases k with
  | none | double | parity => rfl
  | corrected => exact absurd rfl h

/-- The report of a block decoded again (R117). -/
theorem dec84_report_twice :
    (dec84 (dec84 x).block).report = if reportClass (dec84 x).report = 1 then 0x00 else (dec84 x).report := by
  have hcode : (classOf x).code = 1 ↔ classOf x = .corrected := by cases classOf x <;> decide
  rw [reportClass_dec84]
  by_cases hx : classOf x = .corrected
  · rw [if_pos (hcode.mpr hx), dec84_report_twice_codeword x (.inr hx)]
  · rw [if_neg (hcode.not.mpr hx), dec84_block_of_ne_corrected x hx]

/-- What the first pass leaves in a block of `CW`. -/
theorem readCode_decodePass (c : CoreState) (len : Arg) (hi : i < len.toNat / 8) :
    readCode (decodePass c len).cw i = (dec84 (readCode c.cw.words i)).block :=
  readCode_decodeBlocks _ _ _ hi

/-- A second pass finds no block to correct, and so writes none back. -/
theorem decodePass_cw_twice :
    (decodePass (decodedCore c len (decodePass c len)) len).cw = (decodePass c len).cw := by
  refine decodeBlocks_cw_unchanged _ fun i hi => ?_
  show changesBlock (classOf (readCode (decodePass c len).cw i)) = false
  rw [readCode_decodePass c len hi]
  exact changesBlock_of_ne_corrected (classOf_dec84_block _)

/-- A second pass extracts the same data. -/
theorem decodePass_dout_twice :
    (decodePass (decodedCore c len (decodePass c len)) len).dout = (decodePass c len).dout := by
  refine decodeBlocks_dout_congr _ fun i hi => ?_
  show (dec84 (readCode (decodePass c len).cw i)).data = _
  rw [readCode_decodePass c len hi]
  exact dec84_data_twice _

/-- A second pass reports what is left. -/
theorem decodePass_report_twice (hi : i < len.toNat / 8) :
    (decodedCore (decodedCore c len (decodePass c len)) len
      (decodePass (decodedCore c len (decodePass c len)) len)).report i =
      if reportClass ((decodedCore c len (decodePass c len)).report i) = 1 then 0x00
      else (decodedCore c len (decodePass c len)).report i := by
  have hfirst : (decodedCore c len (decodePass c len)).report i = (dec84 (readCode c.cw.words i)).report :=
    decodePass_report c len i hi
  rw [hfirst, ← dec84_report_twice, ← readCode_decodePass c len hi]
  exact decodePass_report _ len i hi

end SecondPass

/-- Settles O29: the first pass leaves only blocks that the decoder does not change, with the data it extracted. -/
theorem secondDecodePassKeepsDataOverwritesLog : Obligations.SecondDecodePassKeepsDataOverwritesLog := by
  intro len s t h8 hl ht
  obtain rfl := next_inj ((exec_decode_performed h8 hl).symm.trans ht)
  refine ⟨_, exec_decode_performed h8 hl, ?cw, ?dout, rfl, fun i hi => decodePass_report_twice hi⟩
  case cw => exact congrArg (fun m => Buffer.mk m s.core.cw.len) decodePass_cw_twice
  case dout => exact congrArg (fun m => Buffer.mk m _) decodePass_dout_twice

section AfterDecode

variable {len : Arg} {s : State} {i : Nat}

/-- The state after a performed `DECODE len` (R112). -/
def afterDecode (len : Arg) (s : State) : State :=
  ({ s with core := decodedCore s.core len (decodePass s.core len) } : State).answer
    (okResponse (BitVec.ofNat 16 (len.toNat / 8)) 0)

theorem exec_decode (h8 : len.toNat % 8 = 0) (hl : len.toNat ≤ s.core.cw.len.toNat) :
    exec (.decode len) s = .next (afterDecode len s) :=
  exec_decode_performed h8 hl

/-- Each decoded block leaves its three results (R115). -/
theorem afterDecode_block (len : Arg) (s : State) (hi : i < len.toNat / 8) :
    readCode (afterDecode len s).core.cw.words i = (dec84 (readCode s.core.cw.words i)).block ∧
    readData (afterDecode len s).core.dout.words i = (dec84 (readCode s.core.cw.words i)).data ∧
    (afterDecode len s).core.report i = (dec84 (readCode s.core.cw.words i)).report :=
  ⟨readCode_decodeBlocks _ _ i hi, readData_decodeBlocks _ _ i hi, decodePass_report _ len i hi⟩

/-- Where every block decodes to a data block of a source, `DOUT` has the bits of that source. -/
theorem afterDecode_dout_bits {m : Memory}
    (h : ∀ i, i < len.toNat / 8 → (dec84 (readCode s.core.cw.words i)).data = readData m i) {j : Nat}
    (hj : j / 4 < len.toNat / 8) : bitRead (afterDecode len s).core.dout.words j = bitRead m j := by
  have hbit : bitRead (afterDecode len s).core.dout.words j = _ := bitRead_decodeBlocks_dout _ (len.toNat / 8) j
  have hindex : 4 * (j / 4) + j % 4 = j := Nat.div_add_mod j 4
  rw [hbit, if_pos (by omega), h _ hj, blockPos_readData _ _ _ (by omega), hindex]

/-- The bits of a decoded block of `CW`, and the bits beyond. -/
theorem afterDecode_cw_bit (len : Arg) (s : State) (j : Nat) :
    bitRead (afterDecode len s).core.cw.words j =
      if j < 8 * (len.toNat / 8) then blockPos (dec84 (readCode s.core.cw.words (j / 8))).block (j % 8)
      else bitRead s.core.cw.words j :=
  bitRead_decodeBlocks_cw _ _ _

end AfterDecode

section Transmission

variable {nblk : Nat} {len : Arg} {s t f : State} {i : Nat}

/-- The length of `CW` after `ENCODE len` (R95). -/
def sentLength (len : Arg) : Arg := BitVec.ofNat 16 (2 * len.toNat)

/-- `t` is a state after a performed `ENCODE len` of the state `s`, whose `CW` register holds the length. -/
structure Sent (len : Arg) (s t : State) : Prop where
  aligned : len.toNat % 4 = 0
  double : (sentLength len).toNat = 2 * len.toNat
  cw : t.core.cw = { words := encodeBlocks s.core.din.words (len.toNat / 4) [], len := sentLength len }

theorem sent_of_encode (hlegal : Config.NblkLegal nblk) (hcap : s.core.din.len.toNat ≤ 4 * nblk)
    (h4 : len.toNat % 4 = 0) (hl : len.toNat ≤ s.core.din.len.toNat) (ht : exec (.encode len) s = .next t) :
    Sent len s t where
  aligned := h4
  double := toNat_double hlegal (hl.trans hcap)
  cw := by
    rw [← next_inj ((exec_encode_performed h4 hl).symm.trans ht)]
    exact buf_setBuf_answer s .cw _ _

theorem sentLength_blocks (h : Sent len s t) : (sentLength len).toNat / 8 = len.toNat / 4 := by
  rw [h.double]
  omega

/-- A sent block is the codeword of its data block (R97). -/
theorem readCode_sent (h : Sent len s t) (hi : i < len.toNat / 4) :
    readCode t.core.cw.words i = encodeData (readData s.core.din.words i) := by
  rw [h.cw]
  exact readCode_encodeBlocks _ _ _ _ hi

/-- `DECODE 2*len` of a `CW` as long as the one sent is performed. -/
theorem exec_decode_received (h : Sent len s t) (hlen : f.core.cw.len = t.core.cw.len) :
    exec (.decode (sentLength len)) f = .next (afterDecode (sentLength len) f) := by
  have h4 := h.aligned
  have hdouble := h.double
  refine exec_decode (by omega) ?_
  rw [hlen, h.cw]

end Transmission

/-- Settles O31: every received block is a codeword, so that none is written back and each gives its data back. -/
theorem roundTripWithoutErrors : Obligations.RoundTripWithoutErrors := by
  intro nblk len s t f hlegal hcap h4 hl ht hcw
  have hsent := sent_of_encode hlegal hcap h4 hl ht
  have hblocks := sentLength_blocks hsent
  have hdec : ∀ i, i < len.toNat / 4 → dec84 (readCode f.core.cw.words i) =
      { block := readCode f.core.cw.words i, data := readData s.core.din.words i, report := 0x00 } := by
    intro i hi
    rw [hcw, readCode_sent hsent hi, dec84_codeword]
  refine ⟨_, exec_decode_received hsent (congrArg Buffer.len hcw), ?cw, ?length, fun k hk => ?bits, ?nrpt,
    fun i hi => ?report, rfl⟩
  case cw =>
    rw [← hcw]
    refine congrArg (fun m => Buffer.mk m f.core.cw.len) (decodeBlocks_cw_unchanged _ fun i hi => ?_)
    rw [hcw, readCode_sent hsent (hblocks ▸ hi), (classOf_eq_none_iff _).mpr ⟨_, rfl⟩]
    rfl
  case length =>
    show BitVec.ofNat 16 ((sentLength len).toNat / 2) = len
    rw [hsent.double, Nat.mul_div_cancel_left _ (by decide)]
    exact BitVec.ofNat_toNat ..
  case bits =>
    refine afterDecode_dout_bits (fun i hi => ?_) (by omega)
    rw [hdec i (hblocks ▸ hi)]
  case nrpt => exact (toNat_ofNat_div _ 8).trans hblocks
  case report =>
    obtain ⟨-, -, hreport⟩ := afterDecode_block (sentLength len) f (hblocks.symm ▸ hi)
    rw [hreport, hdec i hi]

/-- Settles O32: each block is decoded by itself, and the cases are those of R111. -/
theorem errorsAreHandledBlockByBlock : Obligations.ErrorsAreHandledBlockByBlock := by
  intro nblk len s t f hlegal hcap h4 hl ht hlen
  have hsent := sent_of_encode hlegal hcap h4 hl ht
  refine ⟨_, exec_decode_received hsent hlen, fun i hi => ?_⟩
  obtain ⟨hleft, hdata, hreport⟩ := afterDecode_block (sentLength len) f ((sentLength_blocks hsent).symm ▸ hi)
  rw [readCode_sent hsent hi, hleft, hdata, hreport]
  generalize readCode f.core.cw.words i = got
  generalize readData s.core.din.words i = d
  refine ⟨?none, fun p hp => ?one, ?parity, fun p q hp hq hne => ?two⟩
  case none =>
    rintro rfl
    rw [dec84_codeword]
    exact ⟨rfl, rfl, rfl⟩
  case one =>
    rintro rfl
    rw [dec84_oneError d ⟨p, hp⟩]
    exact ⟨rfl, rfl, rfl⟩
  case parity =>
    rintro rfl
    rw [dec84_parityError]
    exact ⟨rfl, rfl, rfl⟩
  case two =>
    intro hgot
    obtain ⟨hclass, hblock, -, -⟩ := dec84_twoErrors d ⟨p, hp⟩ ⟨q, hq⟩ (fun h => hne (congrArg Fin.val h))
    rw [← hgot] at hclass hblock
    rw [reportClass_dec84, hclass]
    exact ⟨hblock, congrArg extractData hblock, rfl⟩

section OneInjectedError

variable {len k : Arg} {s t f : State} {i : Nat}

/-- A codeword with one position inverted, at any position (R111 b, c). -/
theorem dec84_flippedCodeword (d : DataBlock) {p : Nat} (hp : p < 8) :
    dec84 (flipPos (encodeData d) p) =
      { block := if p = 7 then flipPos (encodeData d) p else encodeData d
        data := d
        report := if p = 7 then 0xF8 else packReport .corrected p (BitVec.ofNat 3 (7 - p)) } := by
  by_cases h7 : p = 7
  · subst h7
    exact dec84_parityError d
  · rw [if_neg h7, if_neg h7]
    exact dec84_oneError d ⟨p, by omega⟩

/-- What `DECODE` makes of each block after one injected error. -/
theorem dec84_injected (hsent : Sent len s t) (hk : k.toNat < t.core.cw.len.toNat)
    (hflip : exec (.flip .cw k) t = .next f) (hi : i < len.toNat / 4) :
    dec84 (readCode f.core.cw.words i) =
      { block := if k.toNat % 8 = 7 then readCode f.core.cw.words i else readCode t.core.cw.words i
        data := readData s.core.din.words i
        report := if i ≠ k.toNat / 8 then 0x00
          else if k.toNat % 8 = 7 then 0xF8
          else packReport .corrected (k.toNat % 8) (BitVec.ofNat 3 (7 - k.toNat % 8)) } := by
  by_cases hblock : i = k.toNat / 8
  · have hgot : readCode f.core.cw.words i = flipPos (readCode t.core.cw.words i) (k.toNat % 8) := by
      rw [cw_of_flip hk hflip, hblock]
      exact readCode_bitFlip_self _ _
    rw [if_neg (not_not_intro hblock), hgot, readCode_sent hsent hi]
    exact dec84_flippedCodeword _ (Nat.mod_lt _ (by decide))
  · have hgot : readCode f.core.cw.words i = readCode t.core.cw.words i := by
      rw [cw_of_flip hk hflip]
      exact readCode_bitFlip_ne _ _ hblock
    rw [if_pos hblock, hgot, ite_self, readCode_sent hsent hi, dec84_codeword]

/-- The storage of `CW` after the injection and `DECODE`: only an inverted bit at position 7 is left. -/
theorem cw_bit_injected (hsent : Sent len s t) (hk : k.toNat < t.core.cw.len.toNat)
    (hflip : exec (.flip .cw k) t = .next f) (j : Nat) :
    bitRead (afterDecode (sentLength len) f).core.cw.words j =
      if k.toNat % 8 = 7 ∧ j = k.toNat then !bitRead t.core.cw.words j else bitRead t.core.cw.words j := by
  have hreceived : bitRead f.core.cw.words j =
      if j = k.toNat then !bitRead t.core.cw.words j else bitRead t.core.cw.words j := by
    rw [cw_of_flip hk hflip]
    exact bitRead_bitFlip _ _ j
  have hblocks := sentLength_blocks hsent
  have hkw : k.toNat < 8 * (len.toNat / 4) := by
    have h4 := hsent.aligned
    rw [hsent.cw] at hk
    rw [hsent.double] at hk
    omega
  have hindex : 8 * (j / 8) + j % 8 = j := Nat.div_add_mod j 8
  rw [afterDecode_cw_bit, hblocks]
  by_cases hj : j < 8 * (len.toNat / 4)
  · rw [if_pos hj, dec84_injected hsent hk hflip (by omega)]
    by_cases h7 : k.toNat % 8 = 7
    · simp only [h7, if_true, true_and]
      rw [blockPos_readCode _ _ _ (by omega), hindex, hreceived]
    · simp only [h7, if_false, false_and]
      rw [blockPos_readCode _ _ _ (by omega), hindex]
  · have hne : j ≠ k.toNat := by omega
    rw [if_neg hj, hreceived, if_neg hne, if_neg fun h => hne h.2]

end OneInjectedError

/-- Settles O33: the block of the injected error is a codeword with one inverted position, every other a codeword. -/
theorem oneInjectedErrorDoesNoHarm : Obligations.OneInjectedErrorDoesNoHarm := by
  intro nblk len k s t f hlegal hcap h4 hl hk ht hflip
  have hsent := sent_of_encode hlegal hcap h4 hl ht
  have hblocks := sentLength_blocks hsent
  have hin : k.toNat < t.core.cw.len.toNat := by
    rw [hsent.cw]
    exact hk.trans_eq hsent.double.symm
  have hlen : f.core.cw.len = t.core.cw.len := by rw [cw_of_flip hin hflip]
  refine ⟨_, exec_decode_received hsent hlen, fun j hj => ?data, cw_bit_injected hsent hin hflip, fun i hi => ?report⟩
  case data =>
    refine afterDecode_dout_bits (fun i hi => ?_) (by omega)
    rw [dec84_injected hsent hin hflip (hblocks ▸ hi)]
  case report =>
    obtain ⟨-, -, hreport⟩ := afterDecode_block (sentLength len) f (hblocks.symm ▸ hi)
    rw [hreport, dec84_injected hsent hin hflip hi]

/-- Settles O34: `NRPT` after a `DECODE` is its number of blocks, and the log holds their reports. -/
theorem rdrptAnswersTheLoggedReport : Obligations.RdrptAnswersTheLoggedReport := by
  intro i s
  refine ⟨?word, exec_rdrpt_performed, exec_rdrpt_violation, fun len p h8 hl hdecode => ?afterDecode⟩
  case word => exact decode_plainWord 0xA i (by decide) (.inl (by decide)) (.inl (by decide)) (.inl (by decide))
  case afterDecode =>
    obtain rfl := next_inj ((exec_decode h8 hl).symm.trans hdecode)
    have hnrpt : (afterDecode len p).core.nrpt.toNat = len.toNat / 8 := toNat_ofNat_div len 8
    refine ⟨fun hi => ?_, fun hi => exec_rdrpt_violation (hnrpt.trans_le hi)⟩
    obtain ⟨-, -, hreport⟩ := afterDecode_block len p hi
    rw [← hreport]
    exact exec_rdrpt_performed (hi.trans_eq hnrpt.symm)

end Sys2Proof.Proofs

/-! ### Written commands (30_encoding.md R68)

What the operand forms read, and the run of the commands that `LOAD` stands for. -/

namespace Sys2Proof.Proofs

open Sys2Proof Sys2Proof.Machine

section Operands

/-- An operand field written as its number is read back, at every width. -/
theorem asArg_int (k : Arg) : (AsmOperand.int k.toNat).asArg = some k := by
  rw [AsmOperand.asArg, if_pos k.isLt, BitVec.ofNat_toNat, BitVec.setWidth_eq]

theorem asBlock_int {n : Nat} (x : BitVec n) : (AsmOperand.int x.toNat).asBlock n = some x := by
  rw [AsmOperand.asBlock, if_pos x.isLt, BitVec.ofNat_toNat, BitVec.setWidth_eq]

/-- A data block written as its positions (R50, R52). -/
theorem asBlock_bits (d : DataBlock) :
    (AsmOperand.bits [blockPos d 0, blockPos d 1, blockPos d 2, blockPos d 3]).asBlock 4 = some d := by
  revert d
  decide

theorem asBuf_buffer (b : Buf) : (AsmOperand.buffer b).asBuf = some b := rfl

theorem asBuf_int (b : Buf) : (AsmOperand.int (bufIndex b)).asBuf = some b := by cases b <;> rfl

theorem asBit_int (v : Bool) : (AsmOperand.int v.toNat).asBit = some v := by cases v <;> rfl

end Operands

/-- Settles O46: a written line is its operands read, put into its command. -/
theorem writtenCommandsStandForCommands : Obligations.WrittenCommandsStandForCommands := by
  intro b k v d c
  simp only [assemble, asArg_int, asBlock_int, asBlock_bits, asBuf_buffer, asBuf_int, asBit_int, expandInject,
    expandClear, Option.bind_eq_bind, Option.bind_some, Option.pure_def, and_self]

section Load

variable {nblk : Nat} {b : Buf} {s : State}

/-- The storage after the `SET`s of a `LOAD` from index `k` on. -/
def loadWords (m : Memory) (k : Nat) (bs : List Bool) : Memory :=
  match bs with
  | [] => m
  | x :: rest => loadWords (bitWrite m k x) (k + 1) rest

theorem bitRead_loadWords (m : Memory) (k : Nat) (bs : List Bool) (j : Nat) :
    bitRead (loadWords m k bs) j = if k ≤ j ∧ j < k + bs.length then bs.getD (j - k) false else bitRead m j := by
  induction bs generalizing m k with
  | nil =>
    rw [if_neg (by simp)]
    rfl
  | cons x rest ih =>
    show bitRead (loadWords (bitWrite m k x) (k + 1) rest) j = _
    rw [ih, bitRead_bitWrite, List.length_cons]
    by_cases hj : j = k
    · subst hj
      rw [if_neg (by omega), if_pos rfl, if_pos (by omega), Nat.sub_self, List.getD_cons_zero]
    · rw [if_neg hj]
      by_cases hin : k + 1 ≤ j ∧ j < k + 1 + rest.length
      · have hsub : j - k = (j - (k + 1)) + 1 := by omega
        rw [if_pos hin, if_pos (by omega), hsub, List.getD_cons_succ]
      · rw [if_neg hin, if_neg (by omega)]

/-- Commands run one after another: the first that answers, then the rest (10_state.md R21). -/
theorem execAll_cons {ex : Instr → State → Outcome} {i : Instr} {rest : List Instr} {s u : State}
    (h : ex i s = .next u) : execAll ex (i :: rest) s = execAll ex rest u := by
  rw [execAll, h]

/-- The `SET`s of a `LOAD` put one bit each, and are answered one by one. -/
theorem execAll_loadSets (bs : List Bool) (k : Nat) (hroom : k + bs.length ≤ (s.core.buf b).len.toNat) :
    ∃ t, execAll (execAt nblk) (loadSets b k bs) s = .next t ∧
      t.core = s.core.setBuf b { s.core.buf b with words := loadWords (s.core.buf b).words k bs } ∧
      t.responses = s.responses ++ List.replicate bs.length (okResponse 0 0) := by
  induction bs generalizing k s with
  | nil => exact ⟨s, rfl, (setBuf_buf _ _).symm, (List.append_nil _).symm⟩
  | cons x rest ih =>
    rw [List.length_cons] at hroom
    have hlen := (s.core.buf b).len.isLt
    have hk : (BitVec.ofNat 16 k).toNat = k := (BitVec.toNat_ofNat _ 16).trans (Nat.mod_eq_of_lt (by omega))
    have hset : execAt nblk (.set b (BitVec.ofNat 16 k) x) s = .next (bitWritten b (BitVec.ofNat 16 k) x s) :=
      exec_set_performed (by omega)
    have hbuf := buf_bitWritten b (BitVec.ofNat 16 k) x s
    rw [hk] at hbuf
    have hroom' : k + 1 + rest.length ≤ ((bitWritten b (BitVec.ofNat 16 k) x s).core.buf b).len.toNat := by
      rw [hbuf]
      show _ ≤ (s.core.buf b).len.toNat
      omega
    obtain ⟨t, ht, hcore, hresponses⟩ := ih (k + 1) hroom'
    refine ⟨t, (execAll_cons hset).trans ht, ?_, ?_⟩
    · rw [hcore, hbuf, bitWritten, answer_core, setBuf_core, setBuf_setBuf]
      rfl
    · rw [hresponses, bitWritten, answer_responses, setBuf_responses, List.append_assoc, List.length_cons,
        List.replicate_succ, List.singleton_append]

/-- Every capacity fits a length register (43_control_ops.md R125). -/
theorem capacity_lt (hlegal : Config.NblkLegal nblk) (b : Buf) : capacity nblk b < 2 ^ 16 := by
  obtain ⟨-, hmax⟩ := hlegal
  cases b with
  | din | cw | dout =>
    simp only [capacity]
    omega

/-- `ALLOC` clears the buffer and the `SET`s fill it. -/
theorem execAll_expandLoad (hlegal : Config.NblkLegal nblk) (bs : List Bool) (hfits : bs.length ≤ capacity nblk b) :
    ∃ t, execAll (execAt nblk) (expandLoad b bs) s = .next t ∧
      t.core = s.core.setBuf b { words := loadWords [] 0 bs, len := BitVec.ofNat 16 bs.length } ∧
      t.responses = s.responses ++ List.replicate (bs.length + 1) (okResponse 0 0) := by
  have hlt := capacity_lt hlegal b
  have hn : (BitVec.ofNat 16 bs.length).toNat = bs.length :=
    (BitVec.toNat_ofNat _ 16).trans (Nat.mod_eq_of_lt (by omega))
  have halloc := execAt_alloc_performed (nblk := nblk) (b := b) (s := s) (hn.trans_le hfits)
  have hbuf := buf_setBuf_answer s b { words := [], len := BitVec.ofNat 16 bs.length } (okResponse 0 0)
  obtain ⟨t, ht, hcore, hresponses⟩ := execAll_loadSets (nblk := nblk) bs 0 (by rw [hbuf, hn, Nat.zero_add])
  refine ⟨t, (execAll_cons halloc).trans ht, ?_, ?_⟩
  · rw [hcore, hbuf, answer_core, setBuf_core, setBuf_setBuf]
  · rw [hresponses, answer_responses, setBuf_responses, List.append_assoc, List.replicate_succ, List.singleton_append]

end Load

/-- Settles O47: the storage of the buffer is built up from the cleared one, a bit for each `SET`. -/
theorem loadPlacesTheBits : Obligations.LoadPlacesTheBits := by
  intro nblk b bs s hlegal hfits
  have hlt := hfits.trans_lt (capacity_lt hlegal b)
  obtain ⟨t, ht, hcore, hresponses⟩ := execAll_expandLoad (s := s) hlegal bs hfits
  refine ⟨?assembled, t, ht, ?_⟩
  case assembled =>
    simp only [assemble, asBuf_buffer, if_pos hlt, Option.bind_eq_bind, Option.bind_some, Option.pure_def]
  rw [hcore, buf_setBuf_self]
  refine ⟨(BitVec.toNat_ofNat _ 16).trans (Nat.mod_eq_of_lt hlt), fun k => ?bits, fun b' hne => buf_setBuf_ne _ _ hne,
    core_setBuf_rpt .., core_setBuf_nrpt .., core_setBuf_fault .., hresponses⟩
  case bits =>
    rw [bitRead_loadWords, bitRead_nil, Nat.zero_add, Nat.sub_zero]
    split
    · rfl
    · exact (List.getD_eq_default _ _ (by omega)).symm

end Sys2Proof.Proofs
